-- ==== Sys2Proof/Word.lean ====
section
/-! DEFINITION. The word types of the block: a byte of a storage unit, a single-width word, a double-width word
(spec/00_scope.md R5, R10). -/

namespace Sys2Proof

/-- One byte of a storage unit (00_scope.md R5: a byte is 8 bits). -/
abbrev Byte := BitVec 8

/-- A single-width word: a legacy single logical word `L`, or an IEEE single pattern `F`. -/
abbrev Word32 := BitVec 32

/-- A double-width word: a legacy double logical word, an IEEE double pattern, or the whole of a port. -/
abbrev Word64 := BitVec 64

end Sys2Proof
end

