-- ==== Sys2Proof/Config.lean ====
section
/-! DEFINITION. The constants of the block (spec/00_scope.md R5 to R9). They are wired, not stored (10_state.md R31); no
parameter is left open (R9), so nothing here is opaque. -/

namespace Sys2Proof

/-- One width's constants: the field sizes, which the legacy and the IEEE form share (00_scope.md R5, R8), and the two
exponent biases (R6). -/
structure Format where
  expSize : Nat
  mantSize : Nat
  legacyBias : Nat
  ieeeBias : Nat
deriving DecidableEq, Repr

namespace Format

/-- Single width: exponent 8 bits, mantissa 23 bits, biases 128 and 127 (R5, R6). -/
@[reducible] def single : Format := ⟨8, 23, 128, 127⟩

/-- Double width: exponent 11 bits, mantissa 52 bits, biases 1024 and 1023 (R5, R6). -/
@[reducible] def double : Format := ⟨11, 52, 1024, 1023⟩

/-- A word of the format: sign, then exponent, then mantissa, the sign in the top bit (30_encoding.md R62 to R65). -/
abbrev Word (f : Format) := BitVec (1 + f.expSize + f.mantSize)

/-- `ADJ = 1 + legacyBias - ieeeBias` (R6). -/
def adj (f : Format) : Int := 1 + f.legacyBias - f.ieeeBias

/-- `LEXPMAX = 2*legacyBias - 1`, the largest legal legacy biased exponent (R7). -/
def lexpMax (f : Format) : Int := 2 * f.legacyBias - 1

/-- `SIGN_BIT` (R8). -/
def signBit (f : Format) : f.Word := 1#_ <<< (f.expSize + f.mantSize)

/-- `EXP_MASK` (R8). -/
def expMask (f : Format) : f.Word := (BitVec.allOnes f.expSize).setWidth _ <<< f.mantSize

/-- `MANT_MASK` (R8). -/
def mantMask (f : Format) : f.Word := (BitVec.allOnes f.mantSize).setWidth _

/-- `HIDDEN_BIT` (R8), in a word one bit wider than the mantissa field. -/
def hiddenBit (f : Format) : BitVec (f.mantSize + 1) := 1#(f.mantSize + 1) <<< f.mantSize

end Format

end Sys2Proof
end

