-- ==== Sys2Proof/Syntax.lean ====
section
/-! DEFINITION. The four operations with their operands (spec/30_encoding.md R60, spec/opcode_table.json), the storage units
they take and give (20_memory.md R41), and the textual operation lines of 30_encoding.md R77. -/

namespace Sys2Proof

/-- A legacy single storage unit: exactly four bytes, `b0` the first in stream order (20_memory.md R41, 00_scope.md R11). -/
structure SingleUnit where
  b0 : Byte
  b1 : Byte
  b2 : Byte
  b3 : Byte
deriving DecidableEq, Repr

/-- A legacy double storage unit: exactly eight bytes, `b0` the first in stream order (20_memory.md R41, 00_scope.md R11). -/
structure DoubleUnit where
  b0 : Byte
  b1 : Byte
  b2 : Byte
  b3 : Byte
  b4 : Byte
  b5 : Byte
  b6 : Byte
  b7 : Byte
deriving DecidableEq, Repr

/-- The bytes of a unit in stream order. -/
def SingleUnit.listing (u : SingleUnit) : List Byte := [u.b0, u.b1, u.b2, u.b3]

/-- The bytes of a unit in stream order. -/
def DoubleUnit.listing (u : DoubleUnit) : List Byte := [u.b0, u.b1, u.b2, u.b3, u.b4, u.b5, u.b6, u.b7]

/-- The instruction set: the four operations of 30_encoding.md R60, one constructor per row of the opcode table. An operand
has the shape the source's interface gives it (10_state.md R28): a whole storage unit for a decode, a bit pattern for an
encode. A partial unit cannot be written (93_implementation_defined.md U7). -/
inductive Instr where
  /-- `decodeSingle` (41_single_width.md R100), also named `legacy_fp32_to_ieee754_single`. -/
  | decodeSingle (unit : SingleUnit)
  /-- `decodeDouble` (42_double_width.md R120), also named `legacy_fp64_to_ieee754_double`. -/
  | decodeDouble (unit : DoubleUnit)
  /-- `encodeSingle` (41_single_width.md R105), also named `ieee754_single_to_legacy_fp32`. -/
  | encodeSingle (pattern : Word32)
  /-- `encodeDouble` (42_double_width.md R124), also named `ieee754_double_to_legacy_fp64`. -/
  | encodeDouble (pattern : Word64)
deriving DecidableEq, Repr

/-- The four mnemonics (30_encoding.md R60). -/
inductive Mnemonic where
  | decodeSingle
  | decodeDouble
  | encodeSingle
  | encodeDouble
deriving DecidableEq, Repr

/-- The spelling of a mnemonic: the source's interface name (R60, R77). -/
def Mnemonic.name : Mnemonic → String
  | .decodeSingle => "decodeSingle"
  | .decodeDouble => "decodeDouble"
  | .encodeSingle => "encodeSingle"
  | .encodeDouble => "encodeDouble"

/-- The second spelling of a mnemonic: the requester's name (R60). -/
def Mnemonic.requesterName : Mnemonic → String
  | .decodeSingle => "legacy_fp32_to_ieee754_single"
  | .decodeDouble => "legacy_fp64_to_ieee754_double"
  | .encodeSingle => "ieee754_single_to_legacy_fp32"
  | .encodeDouble => "ieee754_double_to_legacy_fp64"

/-- The mnemonic of an instruction. -/
def Instr.mnemonic : Instr → Mnemonic
  | .decodeSingle _ => .decodeSingle
  | .decodeDouble _ => .decodeDouble
  | .encodeSingle _ => .encodeSingle
  | .encodeDouble _ => .encodeDouble

/-- The operand of a textual line as it is written (R77): a byte listing in stream order, or a bit pattern. -/
inductive LineOperand where
  | bytes (listing : List Byte)
  | pattern (value : Nat)
deriving DecidableEq, Repr

/-- One textual operation line, `mnemonic operand`, as it is written and before it is checked (R77). -/
structure Line where
  mnemonic : Mnemonic
  operand : LineOperand
deriving DecidableEq, Repr

/-- The line that writes an instruction. -/
def Instr.toLine : Instr → Line
  | .decodeSingle u => ⟨.decodeSingle, .bytes u.listing⟩
  | .decodeDouble u => ⟨.decodeDouble, .bytes u.listing⟩
  | .encodeSingle p => ⟨.encodeSingle, .pattern p.toNat⟩
  | .encodeDouble p => ⟨.encodeDouble, .pattern p.toNat⟩

end Sys2Proof
end

