-- ==== Sys2Proof/WellFormed.lean ====
section
/-! DEFINITION. Which textual lines (spec/30_encoding.md R77) are operations of the block. A term of `Instr` cannot be ill
formed: its operand has the exact shape (20_memory.md R41, 93_implementation_defined.md U7). A line can, and this file
refuses it by name. -/

namespace Sys2Proof

/-- Why a line is no operation of the block. -/
inductive LineError where
  /-- A decode takes a byte listing and an encode a bit pattern (30_encoding.md R77). -/
  | operandKind
  /-- A storage unit is exactly 4 or exactly 8 bytes (20_memory.md R41): a listing of `found` bytes is none. -/
  | unitLength (found : Nat)
  /-- An IEEE single pattern has 32 bits and an IEEE double pattern 64 (30_encoding.md R64, R65). -/
  | patternWidth
deriving DecidableEq, Repr

/-- The instruction a line writes, or why it writes none (R77, R41). -/
def Line.parse : Line → Except LineError Instr
  | ⟨.decodeSingle, .bytes [b0, b1, b2, b3]⟩ => .ok (.decodeSingle ⟨b0, b1, b2, b3⟩)
  | ⟨.decodeSingle, .bytes bs⟩ => .error (.unitLength bs.length)
  | ⟨.decodeSingle, .pattern _⟩ => .error .operandKind
  | ⟨.decodeDouble, .bytes [b0, b1, b2, b3, b4, b5, b6, b7]⟩ =>
      .ok (.decodeDouble ⟨b0, b1, b2, b3, b4, b5, b6, b7⟩)
  | ⟨.decodeDouble, .bytes bs⟩ => .error (.unitLength bs.length)
  | ⟨.decodeDouble, .pattern _⟩ => .error .operandKind
  | ⟨.encodeSingle, .pattern n⟩ =>
      if n < 2 ^ 32 then .ok (.encodeSingle (BitVec.ofNat 32 n)) else .error .patternWidth
  | ⟨.encodeSingle, .bytes _⟩ => .error .operandKind
  | ⟨.encodeDouble, .pattern n⟩ =>
      if n < 2 ^ 64 then .ok (.encodeDouble (BitVec.ofNat 64 n)) else .error .patternWidth
  | ⟨.encodeDouble, .bytes _⟩ => .error .operandKind

/-- A line is well formed when it writes an instruction. -/
def Line.wellFormed (l : Line) : Bool :=
  match l.parse with
  | .ok _ => true
  | .error _ => false

end Sys2Proof
end

