-- ==== Sys2Proof/Decode.lean ====
section
/-! DEFINITION. The one instruction format, the pair `(op[1:0], a[63:0])` (spec/30_encoding.md R60, R61): its decoder, its
encoder, the port layout of a storage unit (00_scope.md R11, 10_state.md R29), and the refusal of wider operation codes
(93_implementation_defined.md U5). -/

namespace Sys2Proof

/-- An encoded instruction: the pair presented on the input ports (R61). -/
structure Presentation where
  op : BitVec 2
  a : Word64
deriving DecidableEq, Repr

/-- `BE32(B[0..3])`: four bytes read as one big-endian integer (00_scope.md R11). -/
def be32 (u : SingleUnit) : Word32 := u.b0 ++ u.b1 ++ u.b2 ++ u.b3

/-- `BE32inv(S)` (00_scope.md R11). -/
def be32Inv (s : Word32) : SingleUnit :=
  ⟨s.extractLsb' 24 8, s.extractLsb' 16 8, s.extractLsb' 8 8, s.extractLsb' 0 8⟩

/-- The first four stream bytes of a double unit. -/
def DoubleUnit.first (u : DoubleUnit) : SingleUnit := ⟨u.b0, u.b1, u.b2, u.b3⟩

/-- The last four stream bytes of a double unit. -/
def DoubleUnit.last (u : DoubleUnit) : SingleUnit := ⟨u.b4, u.b5, u.b6, u.b7⟩

/-- The double unit of two four-byte runs, the first run first in the stream. -/
def DoubleUnit.ofRuns (x y : SingleUnit) : DoubleUnit :=
  ⟨x.b0, x.b1, x.b2, x.b3, y.b0, y.b1, y.b2, y.b3⟩

/-- The 64-bit port value of a double unit, `B[0..3]` in the upper half and `B[4..7]` in the lower (10_state.md R29). -/
def be64 (u : DoubleUnit) : Word64 := be32 u.first ++ be32 u.last

/-- The double unit a 64-bit port value carries (10_state.md R29). -/
def be64Inv (s : Word64) : DoubleUnit :=
  .ofRuns (be32Inv (s.extractLsb' 32 32)) (be32Inv (s.extractLsb' 0 32))

/-- The operation code of a mnemonic (R60). -/
def Mnemonic.op : Mnemonic → BitVec 2
  | .decodeSingle => 0b00#2
  | .decodeDouble => 0b01#2
  | .encodeSingle => 0b10#2
  | .encodeDouble => 0b11#2

/-- The mnemonic of an operation code: all four codes are assigned (R61). -/
def Mnemonic.ofOp (op : BitVec 2) : Mnemonic :=
  if op = 0b00#2 then .decodeSingle
  else if op = 0b01#2 then .decodeDouble
  else if op = 0b10#2 then .encodeSingle
  else .encodeDouble

/-- The decoder of a presented pair. It is total (R61). For the single-width operations `a[63:32]` is ignored
(10_state.md R29). -/
def decode (p : Presentation) : Instr :=
  match Mnemonic.ofOp p.op with
  | .decodeSingle => .decodeSingle (be32Inv (p.a.extractLsb' 0 32))
  | .decodeDouble => .decodeDouble (be64Inv p.a)
  | .encodeSingle => .encodeSingle (p.a.extractLsb' 0 32)
  | .encodeDouble => .encodeDouble p.a

/-- The operand port value of an instruction (10_state.md R29). The bits a single-width operation ignores are written as
zeros. DESIGN CHOICE (log entry 8), safe: the operation does not read them. -/
def operandPort : Instr → Word64
  | .decodeSingle u => (be32 u).setWidth 64
  | .decodeDouble u => be64 u
  | .encodeSingle p => p.setWidth 64
  | .encodeDouble p => p

/-- The encoder: the pair that presents an instruction (R61, R77). -/
def encode (i : Instr) : Presentation := ⟨i.mnemonic.op, operandPort i⟩

/-- Why an operation code is refused. -/
inductive DecodeError where
  /-- The code does not fit the 2-bit select: the spec gives it no meaning (93_implementation_defined.md U5). -/
  | unassignedOp (code : Nat)
deriving DecidableEq, Repr

/-- The decoder of an operation code given as a number of any size: a code wider than two bits is refused by name (U5). -/
def decodeOpCode (code : Nat) (a : Word64) : Except DecodeError Instr :=
  if code < 4 then .ok (decode ⟨BitVec.ofNat 2 code, a⟩) else .error (.unassignedOp code)

/-- The instruction whose opcode-table bits are `w`. The table numbers `op[1:0]` alone (R61), so the operand, which has no
bits there, is zero. -/
def decodeTableWord (_nbits w : Nat) : Option Instr :=
  match decodeOpCode w 0#64 with
  | .ok i => some i
  | .error _ => none

end Sys2Proof
end

