-- ==== Sys2Proof/Machine/State.lean ====
section
/-! DEFINITION. The machine's state: the four signals of the block's interface (spec/10_state.md R28). The block holds no
architectural state (R20 to R27), so there is nothing else. -/

namespace Sys2Proof.Machine

/-- The four signals of 10_state.md R28. `op` and `a` are the inputs the host holds; `y` and `cond` are the outputs of the
latest evaluation. None of them is storage that an operation reads back: the outputs are never an input of a later
operation (10_state.md R20, R23). -/
structure State where
  /-- Operation select (30_encoding.md R60). -/
  op : BitVec 2
  /-- Operand (10_state.md R29). -/
  a : Word64
  /-- Result value (10_state.md R29, R30). -/
  y : Word64
  /-- Outcome tag (60_exceptions.md R144). -/
  cond : BitVec 2
deriving DecidableEq, Repr

/-- Faults of the machine: there is none. The block never traps, hangs or stops (00_scope.md R16, 60_exceptions.md R146), so
nothing raises one. Safe: no step ends here. -/
inductive Fault where
deriving DecidableEq, Repr

/-- Refusals of the machine. -/
inductive Refusal where
  /-- Raised by an arm of `exec` whose instruction has no meaning yet; no arm raises it in this model. Safe: a refused
  step proves nothing about the block. -/
  | notModelled (mnemonic : String)
deriving DecidableEq, Repr

/-- The signals right after reset. The spec gives no reset input and no reset value (70_reset_and_hazards.md R160, 10_state.md
R33): the outputs are, as always, the function of the inputs. DESIGN CHOICE (log entry 2), unsafe: the inputs stand at
zero; `y` and `cond` are what R160 then gives, `decodeSingle 00 00 00 00 -> +0, OK`. -/
def State.reset : State := ⟨0#2, 0#64, 0#64, 0#2⟩

/-- What the host does before an evaluation: present a pair on the input ports (20_memory.md R47). -/
def State.present (s : State) (p : Presentation) : State := { s with op := p.op, a := p.a }

/-- The pair that stands on the input ports. -/
def State.presented (s : State) : Presentation := ⟨s.op, s.a⟩

end Sys2Proof.Machine
end

