-- ==== Sys2Proof/Machine/Flags.lean ====
section
/-! DEFINITION. The outcome tag (spec/60_exceptions.md R140 to R144). It is the block's only status output; no persistent flag
exists (10_state.md R23). -/

namespace Sys2Proof.Machine

/-- The four outcomes (60_exceptions.md R140, R144). -/
inductive Cond where
  | ok
  | reservedOperand
  | noEquivalent
  | overflow
deriving DecidableEq, Repr

/-- The code on `cond[1:0]` (R144). -/
def Cond.code : Cond → BitVec 2
  | .ok => 0b00#2
  | .reservedOperand => 0b01#2
  | .noEquivalent => 0b10#2
  | .overflow => 0b11#2

end Sys2Proof.Machine
end

