-- ==== Sys2Proof/Machine/Operands.lean ====
section
/-! DEFINITION. Operand assembly: the bit-layout utility (spec/40_layout_utility.md R90 to R94) and the fields of a word
(30_encoding.md R62 to R65, R74). -/

namespace Sys2Proof.Machine

/-- `SWAP16(S)`: the two 16-bit halves exchanged (40_layout_utility.md R90). -/
def swap16 (s : Word32) : Word32 := s.extractLsb' 0 16 ++ s.extractLsb' 16 16

/-- `UNPACK32(B[0..3])` (R91). -/
def unpack32 (u : SingleUnit) : Word32 := swap16 (be32 u)

/-- `PACK32(L)` (R92). -/
def pack32 (l : Word32) : SingleUnit := be32Inv (swap16 l)

/-- `UNPACK64(B[0..7])`: the low-order half is stored first (R93). -/
def unpack64 (u : DoubleUnit) : Word64 := unpack32 u.last ++ unpack32 u.first

/-- `PACK64(L)` (R94). -/
def pack64 (l : Word64) : DoubleUnit :=
  .ofRuns (pack32 (l.extractLsb' 0 32)) (pack32 (l.extractLsb' 32 32))

variable (f : Format)

/-- The sign `s`, the top bit (30_encoding.md R62 to R65). -/
def signOf (w : f.Word) : BitVec 1 := w.extractLsb' (f.expSize + f.mantSize) 1

/-- The biased exponent field `e`. -/
def expOf (w : f.Word) : BitVec f.expSize := w.extractLsb' f.mantSize f.expSize

/-- The mantissa field `m`. -/
def mantOf (w : f.Word) : BitVec f.mantSize := w.extractLsb' 0 f.mantSize

/-- `{s, e, m}`: the word of three fields. -/
def joinFields (s : BitVec 1) (e : BitVec f.expSize) (m : BitVec f.mantSize) : f.Word := s ++ e ++ m

end Sys2Proof.Machine
end

