-- ==== Sys2Proof/Machine/Ops.lean ====
section
/-! DEFINITION. The shared operations: the width-generic decode `DEC` and encode `ENC` of spec/00_scope.md R14, and the
completion of an operation. The block has no exception entry and no return from one (60_exceptions.md R146, R150, R151): an
operation that "fails" completes like any other, through `deliver`. -/

namespace Sys2Proof.Machine

/-- The value returned with RESERVED_OPERAND: `+0`, every bit clear (41_single_width.md R102, 42_double_width.md R122; the
spec's decision D7, log entry 5). -/
def reservedFallback (f : Format) : f.Word := 0

/-- The exponent field that holds a re-biased exponent, `e2[EXP_SIZE-1:0]` (41_single_width.md R101, R106). -/
def expField (f : Format) (e2 : Int) : BitVec f.expSize := BitVec.ofInt f.expSize e2

/-- `HIDDEN_BIT | m`, one bit wider than the mantissa field (41_single_width.md R104). -/
def withHidden (f : Format) (m : BitVec f.mantSize) : BitVec (f.mantSize + 1) :=
  f.hiddenBit ||| m.setWidth (f.mantSize + 1)

/-- `DEC(L)`: the decode algorithm on a logical word (41_single_width.md R101, 42_double_width.md R121). -/
def dec (f : Format) (l : f.Word) : f.Word × Cond :=
  let s := signOf f l
  let e := expOf f l
  let m := mantOf f l
  if e = 0 then
    if s = 1 then (reservedFallback f, .reservedOperand) else (0, .ok)
  else
    let e2 : Int := e.toNat - f.adj
    if 0 < e2 then (joinFields f s (expField f e2) m, .ok)
    else
      let shifted := withHidden f m >>> (1 - e2).toNat
      (joinFields f s 0 (shifted.setWidth f.mantSize), .ok)

/-- The loop of `RENORM` (41_single_width.md R107): shift left until the hidden bit appears, decrementing `e`. The first
argument bounds the iterations. -/
def renormLoop (ms : Nat) : Nat → BitVec (ms + 1) → Int → Int × BitVec (ms + 1)
  | 0, m, e => (e, m)
  | n + 1, m, e => if m.getLsbD ms then (e, m) else renormLoop ms n (m <<< 1) (e - 1)

/-- `RENORM(m)`: the exponent and the re-normalized mantissa of an IEEE subnormal, counted from exponent 1, the hidden bit
dropped (41_single_width.md R107, 42_double_width.md R126; the spec's decision D8). -/
def renorm (f : Format) (m : BitVec f.mantSize) : Int × BitVec f.mantSize :=
  let r := renormLoop f.mantSize f.mantSize (m.setWidth (f.mantSize + 1)) 1
  (r.1, r.2.setWidth f.mantSize)

/-- The exponent (as an integer) and the mantissa an encode works with: re-normalized for a subnormal, the fields
themselves otherwise (41_single_width.md R106). -/
def encodeOperand (f : Format) (w : f.Word) : Int × BitVec f.mantSize :=
  if expOf f w = 0 then renorm f (mantOf f w) else ((expOf f w).toNat, mantOf f w)

/-- `ENC(F)`: the encode algorithm, giving the logical word (41_single_width.md R106, 42_double_width.md R125). -/
def enc (f : Format) (w : f.Word) : f.Word × Cond :=
  let s := signOf f w
  if expOf f w = 0 ∧ mantOf f w = 0 then (0, .ok)
  else if expOf f w = BitVec.allOnes f.expSize then
    (joinFields f s (BitVec.allOnes f.expSize) 0, .noEquivalent)
  else
    let x := encodeOperand f w
    let e2 := x.1 + f.adj
    if e2 ≤ 0 then (0, .ok)
    else if f.lexpMax < e2 then
      (joinFields f s (BitVec.allOnes f.expSize) (BitVec.allOnes f.mantSize), .overflow)
    else (joinFields f s (expField f e2) x.2, .ok)

/-- Driving the two outputs; the inputs are the host's and stay (10_state.md R30). -/
def State.drive (s : State) (y : Word64) (c : Cond) : State := { s with y := y, cond := c.code }

/-- The completion of every operation: `y` and `cond` are delivered together, whatever the outcome is (10_state.md R30,
60_exceptions.md R146). -/
def deliver (y : Word64) (c : Cond) (s : State) : Host.Outcome State Fault Refusal := .next (s.drive y c)

end Sys2Proof.Machine
end

