-- ==== Sys2Proof/Machine/DoubleWidth.lean ====
section
/-! DEFINITION. The double-width converter (spec/42_double_width.md): `decodeDouble` and `encodeDouble`, and the two-half
loops of R123 and R126. The meanings use the 64-bit form, which R129 calls the observable behaviour. -/

namespace Sys2Proof.Machine

/-- `DEC64(L)` (R121). -/
def dec64 (l : Word64) : Word64 × Cond := dec .double l

/-- `ENC64(F)` (R125). -/
def enc64 (w : Word64) : Word64 × Cond := enc .double w

/-- `decodeDouble` (R120): `DEC64(UNPACK64(B))` in `y`. -/
def execDecodeDouble (unit : DoubleUnit) (s : State) : Host.Outcome State Fault Refusal :=
  deliver (dec64 (unpack64 unit)).1 (dec64 (unpack64 unit)).2 s

/-- `encodeDouble` (R124): `PACK64` of the word of `ENC64(F)`, its bytes in `y` (10_state.md R29). -/
def execEncodeDouble (pattern : Word64) (s : State) : Host.Outcome State Fault Refusal :=
  deliver (be64 (pack64 (enc64 pattern).1)) (enc64 pattern).2 s

/-- A mantissa in two halves: 21 bits with the hidden-bit position at bit 20, and 32 bits (R123, R126). -/
structure Halves where
  hi : BitVec 21
  lo : BitVec 32
deriving DecidableEq, Repr

/-- One right shift: the bit leaving `hi` enters `lo` at bit 31, and `lo[0]` is chopped (R123). -/
def Halves.shiftRightOne (h : Halves) : Halves :=
  ⟨h.hi >>> 1, (h.lo >>> 1) ||| ((h.hi.setWidth 32 &&& 1) <<< 31)⟩

/-- One left shift: the bit leaving `lo` at bit 31 enters `hi` at bit 0 (R126). -/
def Halves.shiftLeftOne (h : Halves) : Halves :=
  ⟨(h.hi <<< 1) ||| (h.lo >>> 31).setWidth 21, h.lo <<< 1⟩

/-- `repeat n times` of R123. -/
def Halves.shiftRight : Nat → Halves → Halves
  | 0, h => h
  | n + 1, h => Halves.shiftRight n h.shiftRightOne

/-- The subnormal case of the double decode in two halves (R123), for a logical word with exponent field 1 or 2. -/
def decodeSubnormalHalves (l : Word64) : Word64 :=
  let hi : BitVec 21 := 0x100000#21 ||| (l.extractLsb' 32 20).setWidth 21
  let lo : BitVec 32 := l.extractLsb' 0 32
  let sh := (1 - ((l.extractLsb' 52 11).toNat - Format.double.adj)).toNat
  let h := Halves.shiftRight sh ⟨hi, lo⟩
  l.extractLsb' 63 1 ++ 0#11 ++ h.hi.setWidth 20 ++ h.lo

/-- The `while` of R126 with the bound R129 gives as its first argument. -/
def renormHalvesLoop : Nat → Halves → Int → Int × Halves
  | 0, h, e => (e, h)
  | n + 1, h, e => if h.hi.getLsbD 20 then (e, h) else renormHalvesLoop n h.shiftLeftOne (e - 1)

/-- `RENORM64(m)` in two halves (R126). -/
def renormHalves (m : BitVec 52) : Int × BitVec 52 :=
  let r := renormHalvesLoop 52 ⟨(m.extractLsb' 32 20).setWidth 21, m.extractLsb' 0 32⟩ 1
  (r.1, r.2.hi.setWidth 20 ++ r.2.lo)

end Sys2Proof.Machine
end

