-- ==== Sys2Proof/Machine/SingleWidth.lean ====
section
/-! DEFINITION. The single-width converter (spec/41_single_width.md): `decodeSingle` and `encodeSingle`. -/

namespace Sys2Proof.Machine

/-- `DEC32(L)` (R101). -/
def dec32 (l : Word32) : Word32 × Cond := dec .single l

/-- `ENC32(F)` (R106). -/
def enc32 (w : Word32) : Word32 × Cond := enc .single w

/-- `decodeSingle` (R100): `DEC32(UNPACK32(B))` in `y[31:0]`, `y[63:32] = 0` (10_state.md R29). -/
def execDecodeSingle (unit : SingleUnit) (s : State) : Host.Outcome State Fault Refusal :=
  deliver ((dec32 (unpack32 unit)).1.setWidth 64) (dec32 (unpack32 unit)).2 s

/-- `encodeSingle` (R105): `PACK32` of the word of `ENC32(F)`, its bytes in `y[31:0]`, `y[63:32] = 0` (10_state.md R29). -/
def execEncodeSingle (pattern : Word32) (s : State) : Host.Outcome State Fault Refusal :=
  deliver ((be32 (pack32 (enc32 pattern).1)).setWidth 64) (enc32 pattern).2 s

end Sys2Proof.Machine
end

