-- ==== Sys2Proof/Machine/Dispatch.lean ====
section
/-! DEFINITION. Which meaning each instruction has (spec/30_encoding.md R60). -/

namespace Sys2Proof.Machine

def exec (i : Instr) (s : State) : Host.Outcome State Fault Refusal :=
  match i with
  | .decodeSingle unit => Sys2Proof.Machine.execDecodeSingle unit s
  | .decodeDouble unit => Sys2Proof.Machine.execDecodeDouble unit s
  | .encodeSingle pattern => Sys2Proof.Machine.execEncodeSingle pattern s
  | .encodeDouble pattern => Sys2Proof.Machine.execEncodeDouble pattern s

end Sys2Proof.Machine
end

