-- ==== Sys2Proof/Machine/Step.lean ====
section
/-! DEFINITION. One step: one evaluation of the presented pair (spec/00_scope.md R15, 70_reset_and_hazards.md R162). -/

namespace Sys2Proof.Machine

/-- Decode the pair on the input ports and run it. There is no program counter and no fetch (10_state.md R22): what is
evaluated next is what the host presents. -/
def step (s : State) : Host.Outcome State Fault Refusal := exec (decode s.presented) s

/-- Presenting the instruction whose opcode-table bits are `w`: the select takes the code and the operand, which the table
gives no bits, is zero. Meant for the words `decodeTableWord` accepts; the select is two bits wide and cannot hold
another (93_implementation_defined.md U5; log entry 4). -/
def State.withFetchWord (s : State) (_nbits w : Nat) : State := s.present ⟨BitVec.ofNat 2 w, 0#64⟩

end Sys2Proof.Machine
end

