-- ==== Sys2Proof/Machine/Run.lean ====
section
/-! DEFINITION. What the host sees of the block: it presents a pair, lets the block evaluate it, and reads the two outputs
(spec/20_memory.md R47, 70_reset_and_hazards.md R162, R165). A run is a finite list of presented pairs, and its end state is
the list of their results (30_encoding.md R77, 70_reset_and_hazards.md R167). -/

namespace Sys2Proof.Machine

/-- What the host reads after an evaluation. -/
structure Result where
  y : Word64
  cond : BitVec 2
deriving DecidableEq, Repr

/-- The outputs as they stand. -/
def State.result (s : State) : Result := ⟨s.y, s.cond⟩

/-- Present `p` and evaluate it. -/
def evaluate (p : Presentation) (s : State) : Host.Outcome State Fault Refusal := step (s.present p)

/-- The results of a list of presentations, in order (R167). -/
def results : List Presentation → State → List Result
  | [], _ => []
  | p :: ps, s =>
    match evaluate p s with
    | .next t => t.result :: results ps t
    | .fault _ => []
    | .refused _ => []

/-- A result as a line of 30_encoding.md R77 shows it: an IEEE pattern for a decode, a byte listing in stream order for an
encode. -/
def Result.shown (r : Result) : Mnemonic → LineOperand
  | .decodeSingle => .pattern (r.y.extractLsb' 0 32).toNat
  | .decodeDouble => .pattern r.y.toNat
  | .encodeSingle => .bytes (be32Inv (r.y.extractLsb' 0 32)).listing
  | .encodeDouble => .bytes (be64Inv r.y).listing

/-- Where a program line takes its operand from (R77): it is written there, or it is the result of an earlier line, the first
line's result having number 0 (DESIGN CHOICE, notes/assumptions/15.md: R77 writes a name). This wiring is the host's. -/
inductive LineSource where
  | written (operand : LineOperand)
  | earlier (k : Nat)
deriving DecidableEq, Repr

/-- One line of a host program (R77). -/
structure ProgramLine where
  mnemonic : Mnemonic
  source : LineSource
deriving DecidableEq, Repr

/-- Why a program is none. -/
inductive ProgramError where
  /-- A line names a result that no earlier line gives. -/
  | noSuchResult (k : Nat)
  /-- A line with its operand in place is no operation. -/
  | line (e : LineError)
  /-- The block stopped. It never does (00_scope.md R16). -/
  | stopped
deriving DecidableEq, Repr

/-- The line with its operand in place. R77 does not say what a named result of the other width or kind is as an operand.
DESIGN CHOICE (notes/assumptions/15.md): it stands in the operand's place as it was shown and is checked like a written one, so
a `decodeSingle` result names the same number as an `encodeDouble` operand (zero-extended), a `decodeDouble` result is an
`encodeSingle` operand when it is below 2^32 and no operand otherwise, and a byte listing of the other length, or a result of
the other direction's kind, is refused by name. -/
def ProgramLine.resolve (l : ProgramLine) (earlier : List (LineOperand × BitVec 2)) :
    Except ProgramError Instr :=
  match l.source with
  | .written o =>
    match (Line.mk l.mnemonic o).parse with
    | .ok i => .ok i
    | .error e => .error (.line e)
  | .earlier k =>
    match earlier[k]? with
    | none => .error (.noSuchResult k)
    | some r =>
      match (Line.mk l.mnemonic r.1).parse with
      | .ok i => .ok i
      | .error e => .error (.line e)

/-- Run a host program line by line: resolve the operand, present the pair, evaluate it, keep `(result, cond)`. The end state
is the list of these pairs (70_reset_and_hazards.md R167). -/
def runProgram : List ProgramLine → State → List (LineOperand × BitVec 2) →
    Except ProgramError (List (LineOperand × BitVec 2))
  | [], _, earlier => .ok earlier
  | l :: ls, s, earlier =>
    match l.resolve earlier with
    | .error e => .error e
    | .ok i =>
      match evaluate (encode i) s with
      | .next t => runProgram ls t (earlier ++ [(t.result.shown l.mnemonic, t.cond)])
      | .fault _ => .error .stopped
      | .refused _ => .error .stopped

end Sys2Proof.Machine
end

