-- ==== Sys2Proof/Machine/Values.lean ====
section
/-! DEFINITION. What a pattern means: the classes of legacy words (spec/30_encoding.md R67 to R69) and of IEEE patterns (R72),
and the exact rational value of each (R70, R72). The block itself moves fields and computes no value (R66); these
definitions are what the exactness rules R103, R104, R107, R111 speak of. The values of IEEE patterns are, in the spec's own
words, from general knowledge (93_implementation_defined.md G3). -/

namespace Sys2Proof.Machine

/-- The four classes of legacy word (R67, R69). -/
inductive LegacyClass where
  | trueZero
  | dirtyZero
  | reservedOperand
  | number
deriving DecidableEq, Repr

/-- The class of a legacy word, decided by `s` and `e`, but for `m` between the two zeros (R67). -/
def legacyClass (f : Format) (l : f.Word) : LegacyClass :=
  if expOf f l = 0 then
    if signOf f l = 1 then .reservedOperand
    else if mantOf f l = 0 then .trueZero else .dirtyZero
  else .number

/-- The five classes of IEEE pattern (R72). -/
inductive IeeeClass where
  | zero
  | subnormal
  | normal
  | infinity
  | nan
deriving DecidableEq, Repr

/-- The class of an IEEE pattern (R72). -/
def ieeeClass (f : Format) (w : f.Word) : IeeeClass :=
  if expOf f w = 0 then if mantOf f w = 0 then .zero else .subnormal
  else if expOf f w = BitVec.allOnes f.expSize then
    if mantOf f w = 0 then .infinity else .nan
  else .normal

/-- `(-1)^s`. -/
def signFactor (s : BitVec 1) : ℚ := if s = 1 then -1 else 1

/-- The value of a legacy word (R70): `(-1)^s × (2^MW + m) × 2^(e - bias - MW - 1)` for a number, 0 for the two zeros, none
for a reserved operand. -/
def legacyValue (f : Format) (l : f.Word) : Option ℚ :=
  match legacyClass f l with
  | .trueZero => some 0
  | .dirtyZero => some 0
  | .reservedOperand => none
  | .number =>
    some (signFactor (signOf f l) * (2 ^ f.mantSize + ((mantOf f l).toNat : ℚ))
      * (2 : ℚ) ^ (((expOf f l).toNat : ℤ) - f.legacyBias - f.mantSize - 1))

/-- The value of an IEEE pattern (R72): `(-1)^s × (2^MW + m) × 2^(e - bias - MW)` for a normal, `(-1)^s × m × 2^(1 - bias - MW)`
for a subnormal, 0 for a zero, none for infinities and NaNs. -/
def ieeeValue (f : Format) (w : f.Word) : Option ℚ :=
  match ieeeClass f w with
  | .zero => some 0
  | .subnormal =>
    some (signFactor (signOf f w) * ((mantOf f w).toNat : ℚ) * (2 : ℚ) ^ ((1 : ℤ) - f.ieeeBias - f.mantSize))
  | .normal =>
    some (signFactor (signOf f w) * (2 ^ f.mantSize + ((mantOf f w).toNat : ℚ))
      * (2 : ℚ) ^ (((expOf f w).toNat : ℤ) - f.ieeeBias - f.mantSize))
  | .infinity => none
  | .nan => none

end Sys2Proof.Machine
end

