-- ==== Sys2Proof/Safety.lean ====
section
/-! DEFINITION. What the claims call right outputs. The conversions are written here a second time, as integer arithmetic on
the number a word is (its sign `n / 2^(EW+MW)`, its exponent `n / 2^MW mod 2^EW`, its mantissa `n mod 2^MW`), from the
closed forms the spec derives (spec/41_single_width.md R103, R104, R107 to R110; 42_double_width.md R123, R126 to R131),
with no loop and no bit operation, so that a claim compares the machine with something that is not the machine. -/

namespace Sys2Proof.Machine

/-- The decode of the logical word `n` of a format with `ew` exponent and `mw` mantissa bits, and the code of its outcome
tag: 0 for a zero exponent, with RESERVED_OPERAND for sign 1 (R101, R102); `n - (2 << mw)` for `e >= 3` (R103, R131);
`{s, 0, floor((2^mw + m) / 2^(3 - e))}` for `e = 1, 2` (R104, R123). -/
def closedDecode (ew mw n : Nat) : Nat × BitVec 2 :=
  let s := n / 2 ^ (ew + mw)
  let e := n / 2 ^ mw % 2 ^ ew
  let m := n % 2 ^ mw
  if e = 0 then (0, if s = 1 then 0b01#2 else 0b00#2)
  else if 3 ≤ e then (n - 2 * 2 ^ mw, 0b00#2)
  else (s * 2 ^ (ew + mw) + (2 ^ mw + m) / 2 ^ (3 - e), 0b00#2)

/-- The encode of the IEEE pattern `n`, as a logical word, and the code of its outcome tag: `{s, ones, 0}` with NO_EQUIVALENT
for an all-ones exponent (R109, R128); `{s, ones, ones}` with OVERFLOW for the exponent below it (R110, R130);
`n + (2 << mw)` for the other normals (R106, R125); `{s, 2, 2m - 2^mw}` and `{s, 1, 4m - 2^mw}` for the representable
subnormals (R107, R126); 0 for what is smaller (R108, R127). -/
def closedEncode (ew mw n : Nat) : Nat × BitVec 2 :=
  let s := n / 2 ^ (ew + mw)
  let e := n / 2 ^ mw % 2 ^ ew
  let m := n % 2 ^ mw
  if e = 2 ^ ew - 1 then (s * 2 ^ (ew + mw) + (2 ^ ew - 1) * 2 ^ mw, 0b10#2)
  else if e = 2 ^ ew - 2 then (s * 2 ^ (ew + mw) + (2 ^ (ew + mw) - 1), 0b11#2)
  else if 1 ≤ e then (n + 2 * 2 ^ mw, 0b00#2)
  else if 2 ^ (mw - 1) ≤ m then (s * 2 ^ (ew + mw) + 2 * 2 ^ mw + (2 * m - 2 ^ mw), 0b00#2)
  else if 2 ^ (mw - 2) ≤ m then (s * 2 ^ (ew + mw) + 2 ^ mw + (4 * m - 2 ^ mw), 0b00#2)
  else (0, 0b00#2)

/-- The four 16-bit words of a 64-bit port in the reverse order, each word as it is (40_layout_utility.md R93, R95). -/
def reverse16x4 (w : Word64) : Word64 :=
  w.extractLsb' 0 16 ++ w.extractLsb' 16 16 ++ w.extractLsb' 32 16 ++ w.extractLsb' 48 16

/-- The two 16-bit words of a 32-bit port half in the reverse order (R90, R95). -/
def reverse16x2 (w : Word32) : Word32 := w.extractLsb' 0 16 ++ w.extractLsb' 16 16

/-- The block as a function from its inputs to its outputs (10_state.md R20, R29; 40_layout_utility.md R95). -/
def portFunction (p : Presentation) : Result :=
  match Mnemonic.ofOp p.op with
  | .decodeSingle =>
    let r := closedDecode 8 23 (reverse16x2 (p.a.extractLsb' 0 32)).toNat
    ⟨BitVec.ofNat 64 r.1, r.2⟩
  | .decodeDouble =>
    let r := closedDecode 11 52 (reverse16x4 p.a).toNat
    ⟨BitVec.ofNat 64 r.1, r.2⟩
  | .encodeSingle =>
    let r := closedEncode 8 23 (p.a.extractLsb' 0 32).toNat
    ⟨(reverse16x2 (BitVec.ofNat 32 r.1)).setWidth 64, r.2⟩
  | .encodeDouble =>
    let r := closedEncode 11 52 p.a.toNat
    ⟨reverse16x4 (BitVec.ofNat 64 r.1), r.2⟩

/-- The outputs are the function of the inputs that stand on the ports (10_state.md R32, 70_reset_and_hazards.md R162). -/
def State.Settled (s : State) : Prop := s.result = portFunction s.presented

/-- The IEEE patterns a decode can produce (30_encoding.md R73): `+0`, a subnormal with `m >= 2^(MW-2)`, a normal with an
exponent field from 1 to `EM - 2`. -/
def DecodeImage (f : Format) (w : f.Word) : Prop :=
  w = 0 ∨ (expOf f w = 0 ∧ 2 ^ (f.mantSize - 2) ≤ (mantOf f w).toNat) ∨
    (1 ≤ (expOf f w).toNat ∧ (expOf f w).toNat ≤ 2 ^ f.expSize - 3)

/-- The outputs are ones the presented operation can give: the upper half of `y` is clear for a single-width operation
(10_state.md R29); a decode gives a pattern of `DecodeImage`, with OK, or `+0` with RESERVED_OPERAND; an encode gives a true
zero or a number, never a dirty zero or a reserved operand, with OK, or one of the two saturation patterns with its own
tag (30_encoding.md R73, 60_exceptions.md R141 to R144). -/
def State.OutputsLegal (s : State) : Prop :=
  match Mnemonic.ofOp s.op with
  | .decodeSingle =>
    s.y.extractLsb' 32 32 = 0 ∧ DecodeImage .single (s.y.extractLsb' 0 32) ∧
      (s.cond = 0b00#2 ∨ (s.cond = 0b01#2 ∧ s.y = 0))
  | .decodeDouble =>
    DecodeImage .double s.y ∧ (s.cond = 0b00#2 ∨ (s.cond = 0b01#2 ∧ s.y = 0))
  | .encodeSingle =>
    s.y.extractLsb' 32 32 = 0 ∧
      (legacyClass .single (reverse16x2 (s.y.extractLsb' 0 32)) = .trueZero ∨
        legacyClass .single (reverse16x2 (s.y.extractLsb' 0 32)) = .number) ∧
      (s.cond = 0b00#2 ∨
        (s.cond = 0b10#2 ∧ (s.y = 0x00007F80#64 ∨ s.y = 0x0000FF80#64)) ∨
        (s.cond = 0b11#2 ∧ (s.y = 0xFFFF7FFF#64 ∨ s.y = 0xFFFFFFFF#64)))
  | .encodeDouble =>
    (legacyClass .double (reverse16x4 s.y) = .trueZero ∨ legacyClass .double (reverse16x4 s.y) = .number) ∧
      (s.cond = 0b00#2 ∨
        (s.cond = 0b10#2 ∧ (s.y = 0x0000000000007FF0#64 ∨ s.y = 0x000000000000FFF0#64)) ∨
        (s.cond = 0b11#2 ∧ (s.y = 0xFFFFFFFFFFFF7FFF#64 ∨ s.y = 0xFFFFFFFFFFFFFFFF#64)))

/-- The outcome tags an operation can give (60_exceptions.md R144, spec/opcode_table.json "conditions"). -/
def mayGive : Mnemonic → Cond → Bool
  | .decodeSingle, c => c = .ok || c = .reservedOperand
  | .decodeDouble, c => c = .ok || c = .reservedOperand
  | .encodeSingle, c => c = .ok || c = .noEquivalent || c = .overflow
  | .encodeDouble, c => c = .ok || c = .noEquivalent || c = .overflow

end Sys2Proof.Machine
end

