-- ==== Sys2Proof/Certificates/Slice0/Obligations.lean ====
section
/-! DEFINITION. The statements for the provers. Rule numbers are those of spec/. `D<n>` is a decision of the spec itself
(92_eei_decisions.md): a statement whose text names one rests on that choice, not on the source's words. -/

open Sys2Proof Sys2Proof.Machine

/-! ## Encoding -/

/-- Decoding an encoded instruction gives it back, every operand byte and bit included (30_encoding.md R60, R61; 10_state.md
R29). The codes and the port layout are the spec's decisions D2 and D3. -/
def Obligations.DecodeEncodeRoundTrip : Prop := ∀ i : Instr, decode (encode i) = i

/-- Encoding a decoded pair gives back the pair, but for the operand bits a single-width operation ignores (10_state.md R29,
decisions D3 and D12), which come back as zeros (the model's choice, log entry 8). -/
def Obligations.EncodeDecodeKeepsReadOperandBits : Prop :=
  ∀ p : Presentation,
    encode (decode p) = ⟨p.op, if p.op.getLsbD 0 then p.a else p.a &&& 0x00000000FFFFFFFF#64⟩

/-- Words written out from 30_encoding.md R60 and R77 decode to the operation they stand for (decision D2), and a code wider
than two bits is refused by name (93_implementation_defined.md U5). -/
def Obligations.OperationCodesSelectTheFourOperations : Prop :=
  decode ⟨0b00#2, 0x0000000000004080#64⟩ = .decodeSingle ⟨0x00, 0x00, 0x40, 0x80⟩ ∧
  decode ⟨0b01#2, 0x2D18544421FB4029#64⟩
    = .decodeDouble ⟨0x2D, 0x18, 0x54, 0x44, 0x21, 0xFB, 0x40, 0x29⟩ ∧
  decode ⟨0b10#2, 0x000000003F800000#64⟩ = .encodeSingle 0x3F800000#32 ∧
  decode ⟨0b11#2, 0x400921FB54442D18#64⟩ = .encodeDouble 0x400921FB54442D18#64 ∧
  (∀ (c : Nat) (a : Word64), decodeOpCode c a = .error (.unassignedOp c) ↔ 4 ≤ c)

/-- A line of 30_encoding.md R77 (notation of decision D16) writes an instruction exactly when it is the line that
instruction is written as. That there is exactly one such line is the model's choice, log entry 7 (DESIGN CHOICE): a line is
tokens, so that the requester's names of R60 and the digit separators of R77 are folded away. -/
def Obligations.LinesWriteExactlyTheInstructions : Prop :=
  (∀ i : Instr, i.toLine.parse = .ok i) ∧ (∀ (l : Line) (i : Instr), l.parse = .ok i → i.toLine = l)

/-- A byte listing that is not exactly one storage unit (20_memory.md R41; 93_implementation_defined.md U7 asks to refuse it),
a pattern wider than its format (30_encoding.md R64, R65), and an operand of the other direction's kind (R77) is no
operation. That each is refused by a name, a listing with the length found, and that the last two are refused at all, is the
model's choice, log entry 7 (DESIGN CHOICE): no rule states it. -/
def Obligations.PartialUnitsAreRefused : Prop :=
  (∀ bs : List Byte, bs.length ≠ 4 →
    (Line.mk .decodeSingle (.bytes bs)).parse = .error (.unitLength bs.length)) ∧
  (∀ bs : List Byte, bs.length ≠ 8 →
    (Line.mk .decodeDouble (.bytes bs)).parse = .error (.unitLength bs.length)) ∧
  (∀ n : Nat, 2 ^ 32 ≤ n → (Line.mk .encodeSingle (.pattern n)).parse = .error .patternWidth) ∧
  (∀ n : Nat, 2 ^ 64 ≤ n → (Line.mk .encodeDouble (.pattern n)).parse = .error .patternWidth) ∧
  (∀ n : Nat, (Line.mk .decodeSingle (.pattern n)).parse = .error .operandKind ∧
    (Line.mk .decodeDouble (.pattern n)).parse = .error .operandKind) ∧
  (∀ bs : List Byte, (Line.mk .encodeSingle (.bytes bs)).parse = .error .operandKind ∧
    (Line.mk .encodeDouble (.bytes bs)).parse = .error .operandKind)

/-! ## The bit-layout utility -/

/-- `SWAP16` (40_layout_utility.md R90): the two 16-bit halves are exchanged, in both of the rule's forms; it is its own
inverse; a word with equal halves is a fixed point; the rule's example. -/
def Obligations.Swap16ExchangesTheHalves : Prop :=
  (∀ s : Word32,
    (swap16 s).extractLsb' 16 16 = s.extractLsb' 0 16 ∧
    (swap16 s).extractLsb' 0 16 = s.extractLsb' 16 16 ∧
    swap16 s = (s <<< 16) ||| (s >>> 16) ∧
    swap16 (swap16 s) = s ∧
    (s.extractLsb' 0 16 = s.extractLsb' 16 16 → swap16 s = s)) ∧
  swap16 0x00004080#32 = 0x40800000#32

/-- `UNPACK32` and `PACK32` (40_layout_utility.md R91, R92): the byte maps of both rules, that the two are mutually inverse
bijections, and the rules' examples. -/
def Obligations.Unpack32AndPack32AreInverse : Prop :=
  (∀ u : SingleUnit,
    unpack32 u = swap16 (be32 u) ∧
    (unpack32 u).extractLsb' 24 8 = u.b2 ∧ (unpack32 u).extractLsb' 16 8 = u.b3 ∧
    (unpack32 u).extractLsb' 8 8 = u.b0 ∧ (unpack32 u).extractLsb' 0 8 = u.b1 ∧
    pack32 (unpack32 u) = u) ∧
  (∀ l : Word32,
    pack32 l = be32Inv (swap16 l) ∧
    (pack32 l).b0 = l.extractLsb' 8 8 ∧ (pack32 l).b1 = l.extractLsb' 0 8 ∧
    (pack32 l).b2 = l.extractLsb' 24 8 ∧ (pack32 l).b3 = l.extractLsb' 16 8 ∧
    unpack32 (pack32 l) = l) ∧
  unpack32 ⟨0x00, 0x00, 0x40, 0x80⟩ = 0x40800000#32 ∧
  unpack32 ⟨0x1C, 0xEA, 0x03, 0x08⟩ = 0x03081CEA#32 ∧
  pack32 0xC0800000#32 = ⟨0x00, 0x00, 0xC0, 0x80⟩ ∧
  pack32 0x11223344#32 = ⟨0x33, 0x44, 0x11, 0x22⟩

/-- `UNPACK64` and `PACK64` (40_layout_utility.md R93, R94): the byte map, the low-order half first, the four 16-bit words in
reverse order with their own byte order kept (and so no full byte reversal), that the two are mutually inverse bijections,
and the rules' examples. -/
def Obligations.Unpack64AndPack64AreInverse : Prop :=
  (∀ u : DoubleUnit,
    unpack64 u = unpack32 u.last ++ unpack32 u.first ∧
    (unpack64 u).extractLsb' 56 8 = u.b6 ∧ (unpack64 u).extractLsb' 48 8 = u.b7 ∧
    (unpack64 u).extractLsb' 40 8 = u.b4 ∧ (unpack64 u).extractLsb' 32 8 = u.b5 ∧
    (unpack64 u).extractLsb' 24 8 = u.b2 ∧ (unpack64 u).extractLsb' 16 8 = u.b3 ∧
    (unpack64 u).extractLsb' 8 8 = u.b0 ∧ (unpack64 u).extractLsb' 0 8 = u.b1 ∧
    unpack64 u = reverse16x4 (be64 u) ∧
    pack64 (unpack64 u) = u) ∧
  (∀ l : Word64,
    (pack64 l).first = pack32 (l.extractLsb' 0 32) ∧ (pack64 l).last = pack32 (l.extractLsb' 32 32) ∧
    unpack64 (pack64 l) = l) ∧
  (∃ u : DoubleUnit, unpack64 u ≠ u.b7 ++ u.b6 ++ u.b5 ++ u.b4 ++ u.b3 ++ u.b2 ++ u.b1 ++ u.b0) ∧
  unpack64 ⟨0x2D, 0x18, 0x54, 0x44, 0x21, 0xFB, 0x40, 0x29⟩ = 0x402921FB54442D18#64 ∧
  pack64 0x402921FB54442D18#64 = ⟨0x2D, 0x18, 0x54, 0x44, 0x21, 0xFB, 0x40, 0x29⟩ ∧
  pack64 0x0102030405060708#64 = ⟨0x07, 0x08, 0x05, 0x06, 0x03, 0x04, 0x01, 0x02⟩

/-- On the ports the layout functions read as 40_layout_utility.md R95 writes them (the port layout is decision D3): for the
single width `SWAP16` of the lower half, for the double width `SWAP16` of each half with the halves exchanged, in both
directions. -/
def Obligations.LayoutOnThePorts : Prop :=
  (∀ a : Word64, unpack32 (be32Inv (a.extractLsb' 0 32)) = swap16 (a.extractLsb' 0 32)) ∧
  (∀ a : Word64, unpack64 (be64Inv a) = swap16 (a.extractLsb' 0 32) ++ swap16 (a.extractLsb' 32 32)) ∧
  (∀ l : Word32, be32 (pack32 l) = swap16 l) ∧
  (∀ l : Word64, (be64 (pack64 l)).extractLsb' 32 32 = swap16 (l.extractLsb' 0 32) ∧
    (be64 (pack64 l)).extractLsb' 0 32 = swap16 (l.extractLsb' 32 32)) ∧
  unpack64 (be64Inv 0x2D18544421FB4029#64) = 0x402921FB54442D18#64

/-- The fields of a word, of either width and either side, are its parts under the masks (30_encoding.md R74, with the constants
of 00_scope.md R8): `e = (W & EXP_MASK) >> MANT_SIZE`, `m = W & MANT_MASK`, and `s` is set when `W & SIGN_BIT` is not 0. -/
def Obligations.FieldsAreTheMaskedParts : Prop :=
  ∀ f : Format, f = .single ∨ f = .double → ∀ w : f.Word,
    (w &&& f.expMask) >>> f.mantSize = (expOf f w).setWidth _ ∧
    w &&& f.mantMask = (mantOf f w).setWidth _ ∧
    (w &&& f.signBit ≠ 0 ↔ signOf f w = 1)

/-! ## decodeSingle -/

/-- `decodeSingle` completes for every unit in every state, with the result of the closed integer form on the logical word
`{B[2], B[3], B[0], B[1]}`, and changes nothing but the two outputs. The `+0` of a reserved operand is decision D7, the code
of the tag D4, the zeros in `y[63:32]` D12. -/
def Obligations.DecodeSingleResult : Prop :=
  ∀ (u : SingleUnit) (s : State),
    let r := closedDecode 8 23 (u.b2 ++ u.b3 ++ u.b0 ++ u.b1 : BitVec 32).toNat
    exec (.decodeSingle u) s = .next { s with y := BitVec.ofNat 64 r.1, cond := r.2 }

/-- 30_encoding.md R68: with exponent field 0 the mantissa is not looked at. Sign 1 signals the reserved-operand error and
yields a zero; sign 0 decodes to `+0` with OK. (Which zero the first is, the spec decides in D7: that is
`ReservedOperandExactly`, not this statement.) -/
def Obligations.ZeroExponentDecodeIgnoresMantissa : Prop :=
  ∀ m : BitVec 23,
    ((dec32 (1#1 ++ 0#8 ++ m)).2 = .reservedOperand ∧ (dec32 (1#1 ++ 0#8 ++ m)).1 &&& 0x7FFFFFFF#32 = 0) ∧
    dec32 (0#1 ++ 0#8 ++ m) = (0, .ok)

/-- A decode of either width gives RESERVED_OPERAND exactly for sign 1 and exponent 0, and then the value `+0`; it never
gives NO_EQUIVALENT or OVERFLOW. That the zero is `+0`, and that the double width gives it too, is decision D7 (log entry 5). -/
def Obligations.ReservedOperandExactly : Prop :=
  ∀ f : Format, f = .single ∨ f = .double → ∀ l : f.Word,
    ((dec f l).2 = .reservedOperand ↔ signOf f l = 1 ∧ expOf f l = 0) ∧
    ((dec f l).2 = .reservedOperand → (dec f l).1 = 0) ∧
    ((dec f l).2 = .ok ∨ (dec f l).2 = .reservedOperand)

/-- 41_single_width.md R103, the normalized decode: for `e >= 3` the sign and the mantissa are copied and the exponent drops
by 2, so that as an integer `F = L - 0x0100_0000`; the value is unchanged; the result exponent is at most 253 (from
`e = 255`), so the result is never an infinity or a NaN and there is no decode overflow; the rule's example.
The values of IEEE patterns are PRESUMED (log entry 9: 30_encoding.md R72 gives them from general knowledge), and the
clause on the value rests on them. -/
def Obligations.DecodeSingleNormalIsExact : Prop :=
  (∀ l : Word32, 3 ≤ (expOf .single l).toNat →
    dec32 l = (l - 0x01000000#32, .ok) ∧
    signOf .single (dec32 l).1 = signOf .single l ∧
    (expOf .single (dec32 l).1).toNat = (expOf .single l).toNat - 2 ∧
    mantOf .single (dec32 l).1 = mantOf .single l ∧
    (expOf .single (dec32 l).1).toNat ≤ 253 ∧
    ieeeClass .single (dec32 l).1 = .normal ∧
    ∃ v, legacyValue .single l = some v ∧ ieeeValue .single (dec32 l).1 = some v) ∧
  unpack32 ⟨0x1C, 0xEA, 0x03, 0x08⟩ = 0x03081CEA#32 ∧ (expOf .single 0x03081CEA#32).toNat = 6 ∧
  dec32 0x03081CEA#32 = (0x02081CEA#32, .ok)

/-- 41_single_width.md R104, the subnormal decode: for `e = 1, 2` the hidden-bit-prefixed mantissa is shifted right by `3 - e`
and chopped, the sign kept; the shifted value's ranges, so that it is never zero; the value is the legacy value truncated
toward zero to a multiple of 2^-149, exact exactly when the lost bits are 0; a shift of 24 or more would leave no bit; the
rule's examples.
The values of IEEE patterns are PRESUMED (log entry 9: 30_encoding.md R72 gives them from general knowledge),
and the clauses on truncation and exactness rest on them. -/
def Obligations.DecodeSingleSubnormalChops : Prop :=
  (∀ l : Word32, (expOf .single l).toNat = 1 ∨ (expOf .single l).toNat = 2 →
    let sh := 3 - (expOf .single l).toNat
    let q := (2 ^ 23 + (mantOf .single l).toNat) / 2 ^ sh
    dec32 l = (signOf .single l ++ 0#8 ++ BitVec.ofNat 23 q, .ok) ∧
    ((expOf .single l).toNat = 2 → 0x400000 ≤ q ∧ q ≤ 0x7FFFFF) ∧
    ((expOf .single l).toNat = 1 → 0x200000 ≤ q ∧ q ≤ 0x3FFFFF) ∧
    ∃ v w : ℚ, legacyValue .single l = some v ∧ ieeeValue .single (dec32 l).1 = some w ∧
      w = signFactor (signOf .single l) * q * (2 : ℚ) ^ (-149 : ℤ) ∧
      |w| ≤ |v| ∧ |v| - |w| < (2 : ℚ) ^ (-149 : ℤ) ∧ 0 < v * w ∧
      (w = v ↔ (mantOf .single l).toNat % 2 ^ sh = 0)) ∧
  (∀ (m : BitVec 23) (sh : Nat), 24 ≤ sh → withHidden .single m >>> sh = 0) ∧
  dec32 0x00800000#32 = (0x00200000#32, .ok) ∧
  dec32 0x00FFFFFF#32 = (0x003FFFFF#32, .ok) ∧
  dec32 0x81000001#32 = (0x80400000#32, .ok)

/-! ## decodeDouble -/

/-- `decodeDouble` completes for every unit in every state, with the result of the closed integer form on the logical word
`{B[6], B[7], B[4], B[5], B[2], B[3], B[0], B[1]}`, and changes nothing but the two outputs. The `+0` of a reserved operand
is decision D7, the code of the tag D4. -/
def Obligations.DecodeDoubleResult : Prop :=
  ∀ (u : DoubleUnit) (s : State),
    let r := closedDecode 11 52
      (u.b6 ++ u.b7 ++ u.b4 ++ u.b5 ++ u.b2 ++ u.b3 ++ u.b0 ++ u.b1 : BitVec 64).toNat
    exec (.decodeDouble u) s = .next { s with y := BitVec.ofNat 64 r.1, cond := r.2 }

/-- 42_double_width.md R131, the normalized decode of the double width: `{s, e - 2, m}`, as an integer
`L - 0x0020_0000_0000_0000`, which changes only the high half; the value is unchanged; the result exponent is at most 2045,
never an infinity or a NaN; the rule's example.
The values of IEEE patterns are PRESUMED (log entry 9: 30_encoding.md R72 gives them from general knowledge), and the clause on the value rests on them. -/
def Obligations.DecodeDoubleNormalIsExact : Prop :=
  (∀ l : Word64, 3 ≤ (expOf .double l).toNat →
    dec64 l = (l - 0x0020000000000000#64, .ok) ∧
    signOf .double (dec64 l).1 = signOf .double l ∧
    (expOf .double (dec64 l).1).toNat = (expOf .double l).toNat - 2 ∧
    mantOf .double (dec64 l).1 = mantOf .double l ∧
    (dec64 l).1.extractLsb' 32 32 = l.extractLsb' 32 32 - 0x00200000#32 ∧
    (dec64 l).1.extractLsb' 0 32 = l.extractLsb' 0 32 ∧
    (expOf .double (dec64 l).1).toNat ≤ 2045 ∧
    ieeeClass .double (dec64 l).1 = .normal ∧
    ∃ v, legacyValue .double l = some v ∧ ieeeValue .double (dec64 l).1 = some v) ∧
  (expOf .double 0x402921FB54442D18#64).toNat = 1026 ∧
  (expOf .double 0x400921FB54442D18#64).toNat = 1024 ∧
  dec64 0x402921FB54442D18#64 = (0x400921FB54442D18#64, .ok)

/-- 42_double_width.md R123, the subnormal decode in two halves: for `e = 1, 2` the loop over the halves gives what the
64-bit decode gives; the ranges of the shifted value, so that the result is never zero; the sign is kept; the value is the
legacy value truncated toward zero to a multiple of 2^-1074; the rule's examples, with the bit that crosses the halves.
The values of IEEE patterns are PRESUMED (log entry 9: 30_encoding.md R72 gives them from general knowledge), and the clauses on truncation
rest on them. -/
def Obligations.DecodeDoubleSubnormalInHalves : Prop :=
  (∀ l : Word64, (expOf .double l).toNat = 1 ∨ (expOf .double l).toNat = 2 →
    let sh := 3 - (expOf .double l).toNat
    let q := (2 ^ 52 + (mantOf .double l).toNat) / 2 ^ sh
    dec64 l = (decodeSubnormalHalves l, .ok) ∧
    decodeSubnormalHalves l = signOf .double l ++ 0#11 ++ BitVec.ofNat 52 q ∧
    ((expOf .double l).toNat = 2 → 2 ^ 51 ≤ q ∧ q ≤ 2 ^ 52 - 1) ∧
    ((expOf .double l).toNat = 1 → 2 ^ 50 ≤ q ∧ q ≤ 2 ^ 51 - 1) ∧
    ∃ v w : ℚ, legacyValue .double l = some v ∧ ieeeValue .double (dec64 l).1 = some w ∧
      |w| ≤ |v| ∧ |v| - |w| < (2 : ℚ) ^ (-1074 : ℤ) ∧ 0 < v * w ∧
      (w = v ↔ (mantOf .double l).toNat % 2 ^ sh = 0)) ∧
  Halves.shiftRightOne ⟨0x100001#21, 0x00000000#32⟩ = ⟨0x080000#21, 0x80000000#32⟩ ∧
  dec64 0x0020000100000000#64 = (0x0008000080000000#64, .ok) ∧
  dec64 0x0010000000000000#64 = (0x0004000000000000#64, .ok) ∧
  dec64 0x001FFFFFFFFFFFFF#64 = (0x0007FFFFFFFFFFFF#64, .ok)

/-- 42_double_width.md R129: after `j` right shifts of the two halves, read as one 53-bit integer, they are the integer
shifted right by `j`; after `j` left shifts in which no set bit is lost, they are it times `2^j`; the decode loop runs once
or twice; the encode loop runs `k` times, `1 <= k <= 52`, and gives what the 53-bit form gives. That the encode loop gives
exponent `1 - k` is R126 and rests on the spec's decision D8 (log entry 6). -/
def Obligations.HalfLoopsAgreeWithWideShifts : Prop :=
  (∀ (h : Halves) (j : Nat),
    (Halves.shiftRight j h).hi ++ (Halves.shiftRight j h).lo = (h.hi ++ h.lo) >>> j) ∧
  (∀ (h : Halves) (j : Nat), (h.hi ++ h.lo).toNat * 2 ^ j < 2 ^ 53 →
    ((Halves.shiftLeftOne^[j] h).hi ++ (Halves.shiftLeftOne^[j] h).lo).toNat
      = (h.hi ++ h.lo).toNat * 2 ^ j) ∧
  (∀ l : Word64, (expOf .double l).toNat = 1 ∨ (expOf .double l).toNat = 2 →
    ((1 - (((expOf .double l).toNat : Int) - Format.double.adj)).toNat = 1 ∨
      (1 - (((expOf .double l).toNat : Int) - Format.double.adj)).toNat = 2) ∧
    decodeSubnormalHalves l = (dec64 l).1) ∧
  (∀ m : BitVec 52, m ≠ 0 → ∃ k : Nat, 1 ≤ k ∧ k ≤ 52 ∧
    2 ^ 52 ≤ m.toNat * 2 ^ k ∧ m.toNat * 2 ^ k < 2 ^ 53 ∧
    renormHalves m = (1 - (k : Int), BitVec.ofNat 52 (m.toNat * 2 ^ k - 2 ^ 52)) ∧
    renormHalves m = renorm .double m)

/-! ## encodeSingle and encodeDouble -/

/-- `encodeSingle` completes for every pattern in every state, with the closed integer form's logical word in the swapped
layout in `y[31:0]`, and changes nothing but the two outputs. Rests on decisions D4 (codes), D8 (a subnormal counts from
exponent 1), D9 (the saturation patterns are packed), D12 (`y[63:32] = 0`), D21 (underflow drops the sign). -/
def Obligations.EncodeSingleResult : Prop :=
  ∀ (p : Word32) (s : State),
    let r := closedEncode 8 23 p.toNat
    exec (.encodeSingle p) s
      = .next { s with y := (reverse16x2 (BitVec.ofNat 32 r.1)).setWidth 64, cond := r.2 }

/-- `encodeDouble` completes for every pattern in every state, with the closed integer form's logical word in the swapped
layout in `y`, and changes nothing but the two outputs. Rests on decisions D4, D8, D9, D21. -/
def Obligations.EncodeDoubleResult : Prop :=
  ∀ (p : Word64) (s : State),
    let r := closedEncode 11 52 p.toNat
    exec (.encodeDouble p) s = .next { s with y := reverse16x4 (BitVec.ofNat 64 r.1), cond := r.2 }

/-- Re-normalizing a subnormal (41_single_width.md R107, 42_double_width.md R126; the start at exponent 1 is decision D8):
with `p` the position of the highest set bit of `m`, `k = MW - p` shifts give exponent `1 - k`, `1 <= k <= MW`, and the
mantissa `m << k` without its hidden bit, no bit being lost; the rules' examples, and the two-half form of R126. -/
def Obligations.RenormCountsFromExponentOne : Prop :=
  (∀ f : Format, f = .single ∨ f = .double → ∀ m : BitVec f.mantSize, m ≠ 0 →
    let k := f.mantSize - m.toNat.log2
    1 ≤ k ∧ k ≤ f.mantSize ∧ 2 ^ f.mantSize ≤ m.toNat * 2 ^ k ∧
    renorm f m = (1 - (k : Int), BitVec.ofNat f.mantSize (m.toNat * 2 ^ k - 2 ^ f.mantSize)) ∧
    m.toNat * 2 ^ k = 2 ^ f.mantSize + (renorm f m).2.toNat) ∧
  (∀ m : BitVec 52, m ≠ 0 → renormHalves m = renorm .double m) ∧
  enc32 0x00200000#32 = (0x00800000#32, .ok) ∧ enc32 0x007FFFFF#32 = (0x017FFFFE#32, .ok) ∧
  enc64 0x0008000080000000#64 = (0x0020000100000000#64, .ok) ∧
  enc64 0x0004000000000000#64 = (0x0010000000000000#64, .ok)

/-- Encode underflow: the result is true zero with OK exactly for the magnitudes below 2^-128 (single, pattern below
`0x0020_0000`) and 2^-1024 (double, below `0x0004_0000_0000_0000`), of either sign. That the sign is dropped is decision D21
(41_single_width.md R108, 42_double_width.md R127). -/
def Obligations.EncodeUnderflowsExactlyBelowRange : Prop :=
  (∀ p : Word32, enc32 p = (0, .ok) ↔ p.toNat % 2 ^ 31 < 0x00200000) ∧
  (∀ p : Word64, enc64 p = (0, .ok) ↔ p.toNat % 2 ^ 63 < 0x0004000000000000)

/-- 41_single_width.md R109: an all-ones exponent gives NO_EQUIVALENT and `{s, 0xFF, 0}`; the input mantissa is ignored; the
word has the bits of an infinity of that sign and as a legacy number means ±2^126; the rule's examples. -/
def Obligations.EncodeSingleNoEquivalent : Prop :=
  (∀ p : Word32, (expOf .single p).toNat = 255 →
    enc32 p = (if signOf .single p = 1 then 0xFF800000#32 else 0x7F800000#32, .noEquivalent) ∧
    ieeeClass .single (enc32 p).1 = .infinity ∧
    legacyValue .single (enc32 p).1 = some (signFactor (signOf .single p) * 2 ^ 126)) ∧
  (∀ p q : Word32, (expOf .single p).toNat = 255 → (expOf .single q).toNat = 255 →
    signOf .single p = signOf .single q → enc32 p = enc32 q) ∧
  (pack32 (enc32 0x7FC00000#32).1 = ⟨0x00, 0x00, 0x7F, 0x80⟩ ∧ (enc32 0x7FC00000#32).2 = .noEquivalent) ∧
  (pack32 (enc32 0xFF800000#32).1 = ⟨0x00, 0x00, 0xFF, 0x80⟩ ∧ (enc32 0xFF800000#32).2 = .noEquivalent)

/-- 41_single_width.md R110: OVERFLOW with `{s, 0xFF, 0x7F_FFFF}` exactly for exponent field 254, which are exactly the
finite magnitudes from 2^127; the in-range `0x7EFF_FFFF` and `0xFEFF_FFFF` give the same words with OK; the rule's
examples.
The values of IEEE patterns are PRESUMED (log entry 9: 30_encoding.md R72 gives them from general knowledge), and the
clause on magnitudes rests on them. -/
def Obligations.EncodeSingleOverflow : Prop :=
  (∀ p : Word32, ((enc32 p).2 = .overflow ↔ (expOf .single p).toNat = 254) ∧
    ((expOf .single p).toNat = 254 →
      enc32 p = (if signOf .single p = 1 then 0xFFFFFFFF#32 else 0x7FFFFFFF#32, .overflow))) ∧
  (∀ (p : Word32) (v : ℚ), ieeeValue .single p = some v → ((2 : ℚ) ^ 127 ≤ |v| ↔ (enc32 p).2 = .overflow)) ∧
  enc32 0x7EFFFFFF#32 = (0x7FFFFFFF#32, .ok) ∧ enc32 0xFEFFFFFF#32 = (0xFFFFFFFF#32, .ok) ∧
  (pack32 (enc32 0x7F7FFFFF#32).1 = ⟨0xFF, 0xFF, 0x7F, 0xFF⟩ ∧ (enc32 0x7F7FFFFF#32).2 = .overflow) ∧
  (pack32 (enc32 0xFF000000#32).1 = ⟨0xFF, 0xFF, 0xFF, 0xFF⟩ ∧ (enc32 0xFF000000#32).2 = .overflow)

/-- 42_double_width.md R128: an all-ones exponent gives NO_EQUIVALENT and `{s, 0x7FF, 0}`; the input mantissa is ignored; as a
legacy number the word means ±2^1022; the rule's examples. -/
def Obligations.EncodeDoubleNoEquivalent : Prop :=
  (∀ p : Word64, (expOf .double p).toNat = 2047 →
    enc64 p
      = (if signOf .double p = 1 then 0xFFF0000000000000#64 else 0x7FF0000000000000#64, .noEquivalent) ∧
    legacyValue .double (enc64 p).1 = some (signFactor (signOf .double p) * 2 ^ 1022)) ∧
  (∀ p q : Word64, (expOf .double p).toNat = 2047 → (expOf .double q).toNat = 2047 →
    signOf .double p = signOf .double q → enc64 p = enc64 q) ∧
  (pack64 (enc64 0x7FF0000000000000#64).1 = ⟨0, 0, 0, 0, 0, 0, 0x7F, 0xF0⟩ ∧
    (enc64 0x7FF0000000000000#64).2 = .noEquivalent) ∧
  (pack64 (enc64 0xFFF8000000000001#64).1 = ⟨0, 0, 0, 0, 0, 0, 0xFF, 0xF0⟩ ∧
    (enc64 0xFFF8000000000001#64).2 = .noEquivalent)

/-- 42_double_width.md R130: OVERFLOW with `{s, 0x7FF, ones}` exactly for exponent field 2046, which are exactly the finite
magnitudes from 2^1023; the in-range `0x7FDF_FFFF_FFFF_FFFF` gives the same word with OK; the rule's examples.
The values of IEEE patterns are PRESUMED (log entry 9: 30_encoding.md R72 gives them from general knowledge), and the
clause on magnitudes rests on them. -/
def Obligations.EncodeDoubleOverflow : Prop :=
  (∀ p : Word64, ((enc64 p).2 = .overflow ↔ (expOf .double p).toNat = 2046) ∧
    ((expOf .double p).toNat = 2046 →
      enc64 p = (if signOf .double p = 1 then 0xFFFFFFFFFFFFFFFF#64 else 0x7FFFFFFFFFFFFFFF#64, .overflow))) ∧
  (∀ (p : Word64) (v : ℚ), ieeeValue .double p = some v →
    ((2 : ℚ) ^ 1023 ≤ |v| ↔ (enc64 p).2 = .overflow)) ∧
  enc64 0x7FDFFFFFFFFFFFFF#64 = (0x7FFFFFFFFFFFFFFF#64, .ok) ∧
  (pack64 (enc64 0x7FE0000000000000#64).1 = ⟨0xFF, 0xFF, 0xFF, 0xFF, 0xFF, 0xFF, 0x7F, 0xFF⟩ ∧
    (enc64 0x7FE0000000000000#64).2 = .overflow) ∧
  (pack64 (enc64 0xFFEFFFFFFFFFFFFF#64).1 = ⟨0xFF, 0xFF, 0xFF, 0xFF, 0xFF, 0xFF, 0xFF, 0xFF⟩ ∧
    (enc64 0xFFEFFFFFFFFFFFFF#64).2 = .overflow)

/-! ## Properties of the pair, both widths -/

/-- Encode is exact: whenever its tag is OK and its word is not zero, the legacy word has the value of the IEEE pattern
(41_single_width.md section 2, 42_double_width.md section 2; the subnormals rest on decision D8).
The values of IEEE patterns are PRESUMED (log entry 9: 30_encoding.md R72 gives them from general knowledge). -/
def Obligations.EncodePreservesValues : Prop :=
  ∀ f : Format, f = .single ∨ f = .double → ∀ p : f.Word,
    (enc f p).2 = .ok → (enc f p).1 ≠ 0 →
    ∃ v, ieeeValue f p = some v ∧ legacyValue f (enc f p).1 = some v

/-- Decode truncates toward zero: a legacy word that has a value decodes, with OK, to a pattern whose value has the same
sign, is not larger in magnitude and is less than one unit of the smallest subnormal smaller; it is equal for `e >= 3`
(41_single_width.md section 1, 42_double_width.md section 1).
The values of IEEE patterns are PRESUMED (log entry 9: 30_encoding.md R72 gives them from general knowledge). -/
def Obligations.DecodeTruncatesTowardZero : Prop :=
  ∀ f : Format, f = .single ∨ f = .double → ∀ (l : f.Word) (v : ℚ), legacyValue f l = some v →
    (dec f l).2 = .ok ∧
    ∃ w, ieeeValue f (dec f l).1 = some w ∧ 0 ≤ v * w ∧ |w| ≤ |v| ∧
      |v| - |w| < (2 : ℚ) ^ ((1 : ℤ) - f.ieeeBias - f.mantSize) ∧ (3 ≤ (expOf f l).toNat → w = v)

/-- The round trip of 41_single_width.md section 3 (a) on the ports: for every IEEE single pattern from 2^-128 to the
largest legacy magnitude, of either sign, `encodeSingle` completes with OK, and `decodeSingle` of what it delivered, with the
output wired back to the operand port, gives the pattern back with OK. Rests on decisions D2, D3, D8. -/
def Obligations.IeeeSingleRoundTrip : Prop :=
  ∀ (p : Word32) (s : State), 0x00200000 ≤ p.toNat % 2 ^ 31 → p.toNat % 2 ^ 31 ≤ 0x7EFFFFFF →
    ∃ t u : State, evaluate ⟨0b10#2, p.setWidth 64⟩ s = .next t ∧ t.cond = 0b00#2 ∧
      evaluate ⟨0b00#2, t.y⟩ t = .next u ∧ u.cond = 0b00#2 ∧ u.y = p.setWidth 64

/-- The round trip of 42_double_width.md section 3 (a) on the ports: for every IEEE double pattern from 2^-1024 to the
largest legacy magnitude, of either sign, `decodeDouble` of what `encodeDouble` delivered gives the pattern back, both with
OK. Rests on decisions D2, D3, D8. -/
def Obligations.IeeeDoubleRoundTrip : Prop :=
  ∀ (p : Word64) (s : State), 0x0004000000000000 ≤ p.toNat % 2 ^ 63 → p.toNat % 2 ^ 63 ≤ 0x7FDFFFFFFFFFFFFF →
    ∃ t u : State, evaluate ⟨0b11#2, p⟩ s = .next t ∧ t.cond = 0b00#2 ∧
      evaluate ⟨0b01#2, t.y⟩ t = .next u ∧ u.cond = 0b00#2 ∧ u.y = p

/-- The other round trip (41_single_width.md section 3 (b), 42_double_width.md section 3 (b)): a legacy number comes back
with exactly the bits the decode chops cleared, none for `e >= 3`, `m[0]` for `e = 2`, `m[1:0]` for `e = 1`, so unchanged
exactly when they are zero; a dirty zero comes back as true zero. Rests on decision D8. -/
def Obligations.LegacyRoundTripLosesOnlyChoppedBits : Prop :=
  ∀ f : Format, f = .single ∨ f = .double → ∀ l : f.Word,
    (legacyClass f l = .number →
      (enc f (dec f l).1).2 = .ok ∧
      (enc f (dec f l).1).1.toNat = l.toNat - (mantOf f l).toNat % 2 ^ (3 - (expOf f l).toNat) ∧
      ((enc f (dec f l).1).1 = l ↔ (mantOf f l).toNat % 2 ^ (3 - (expOf f l).toNat) = 0)) ∧
    (legacyClass f l = .trueZero ∨ legacyClass f l = .dirtyZero → enc f (dec f l).1 = (0, .ok))

/-- Zero canonicalization (41_single_width.md section 3 (c), 42_double_width.md section 3 (c)): both IEEE zeros encode to
the true zero, and a zero-exponent, sign-0 legacy word with any mantissa decodes to `+0`, all with OK. -/
def Obligations.ZerosAreCanonical : Prop :=
  ∀ f : Format, f = .single ∨ f = .double →
    (∀ s : BitVec 1, enc f (joinFields f s 0 0) = (0, .ok)) ∧
    (∀ m : BitVec f.mantSize, dec f (joinFields f 0 0 m) = (0, .ok))

/-- The sign (41_single_width.md section 3 (d), 42_double_width.md section 3 (d)): every result of either direction that is
not zero, the saturation patterns among them, carries the sign bit of its input. Which results are zero rests on
decisions D7 and D21. -/
def Obligations.NonzeroResultsKeepTheSign : Prop :=
  ∀ f : Format, f = .single ∨ f = .double → ∀ w : f.Word,
    ((dec f w).1 ≠ 0 → signOf f (dec f w).1 = signOf f w) ∧
    ((enc f w).1 ≠ 0 → signOf f (enc f w).1 = signOf f w) ∧
    ((enc f w).2 ≠ .ok → (enc f w).1 ≠ 0)

/-- Monotonicity (41_single_width.md section 3 (e)), for both widths: on inputs with OK, both directions are non-decreasing
functions of the represented value.
The values of IEEE patterns are PRESUMED (log entry 9: 30_encoding.md R72 gives them from general knowledge);
what encode flushes or re-normalizes rests on decisions D8 and D21. -/
def Obligations.ConversionsAreMonotone : Prop :=
  ∀ f : Format, f = .single ∨ f = .double → ∀ p q : f.Word,
    (∀ v w : ℚ, legacyValue f p = some v → legacyValue f q = some w → v ≤ w →
      ∃ v' w', ieeeValue f (dec f p).1 = some v' ∧ ieeeValue f (dec f q).1 = some w' ∧ v' ≤ w') ∧
    (∀ v w : ℚ, ieeeValue f p = some v → ieeeValue f q = some w → v ≤ w →
      (enc f p).2 = .ok → (enc f q).2 = .ok →
      ∃ v' w', legacyValue f (enc f p).1 = some v' ∧ legacyValue f (enc f q).1 = some w' ∧ v' ≤ w')

/-- The classes of legacy word are the ranges of 30_encoding.md R67 and R69: the zero word; the other words below
`1 << MW`; the `1 << MW` words from the sign bit alone; all the rest. -/
def Obligations.LegacyClassesAreRanges : Prop :=
  ∀ f : Format, f = .single ∨ f = .double → ∀ l : f.Word,
    let top := 2 ^ (f.expSize + f.mantSize)
    (legacyClass f l = .trueZero ↔ l.toNat = 0) ∧
    (legacyClass f l = .dirtyZero ↔ 1 ≤ l.toNat ∧ l.toNat < 2 ^ f.mantSize) ∧
    (legacyClass f l = .reservedOperand ↔ top ≤ l.toNat ∧ l.toNat < top + 2 ^ f.mantSize) ∧
    (legacyClass f l = .number ↔
      (2 ^ f.mantSize ≤ l.toNat ∧ l.toNat < top) ∨ top + 2 ^ f.mantSize ≤ l.toNat)

/-- The range of legacy numbers (30_encoding.md R71): every number's magnitude lies between the smallest, 2^-128 (double
2^-1024), and the largest, (2^24 - 1)·2^103 (double (2^53 - 1)·2^970), and the words the rule names have these values. -/
def Obligations.LegacyMagnitudeRange : Prop :=
  (∀ l : Word32, legacyClass .single l = .number → ∃ v, legacyValue .single l = some v ∧
    (2 : ℚ) ^ (-128 : ℤ) ≤ |v| ∧ |v| ≤ (2 ^ 24 - 1) * 2 ^ 103) ∧
  (∀ l : Word64, legacyClass .double l = .number → ∃ v, legacyValue .double l = some v ∧
    (2 : ℚ) ^ (-1024 : ℤ) ≤ |v| ∧ |v| ≤ (2 ^ 53 - 1) * 2 ^ 970) ∧
  legacyValue .single 0x00800000#32 = some ((2 : ℚ) ^ (-128 : ℤ)) ∧
  legacyValue .single 0x7FFFFFFF#32 = some ((2 ^ 24 - 1) * 2 ^ 103) ∧
  legacyValue .double 0x0010000000000000#64 = some ((2 : ℚ) ^ (-1024 : ℤ)) ∧
  legacyValue .double 0x7FFFFFFFFFFFFFFF#64 = some ((2 ^ 53 - 1) * 2 ^ 970)

/-- What decode can produce, exactly (30_encoding.md R73): `+0`, the subnormals with `m >= 2^(MW-2)`, the normals with an
exponent field from 1 to `EM - 2`; so never `-0`, an infinity, a NaN or the top binade. -/
def Obligations.DecodeProducesExactlyItsImage : Prop :=
  ∀ f : Format, f = .single ∨ f = .double → ∀ w : f.Word,
    DecodeImage f w ↔ ∃ l : f.Word, (dec f l).1 = w

/-- What encode can produce, exactly: true zero, every number with `e >= 3`, and of those with `e = 2` and `e = 1` the ones
whose low one or two mantissa bits are zero; so never a dirty zero or a reserved operand (30_encoding.md R73, whose words
"every class-4 word" are the upper bound; 41_single_width.md section 3 (b)). Rests on decisions D8 and D21. -/
def Obligations.EncodeProducesExactlyItsImage : Prop :=
  ∀ f : Format, f = .single ∨ f = .double → ∀ l : f.Word,
    (∃ p : f.Word, (enc f p).1 = l) ↔
      l = 0 ∨ ((expOf f l).toNat ≠ 0 ∧ (mantOf f l).toNat % 2 ^ (3 - (expOf f l).toNat) = 0)

/-- The exponent integers stay in the ranges of 00_scope.md section 4 and 42_double_width.md section 2: decode's `e2` from
-1 to 253 (2045), the encode's working exponent from -22 (-51) and its `e2` up to 256 (2048), so that 10 and 13 signed bits
hold them. The lower bounds rest on decision D8. -/
def Obligations.ExponentsStayInTheStatedRanges : Prop :=
  (∀ l : Word32, expOf .single l ≠ 0 →
    -1 ≤ ((expOf .single l).toNat : Int) - Format.single.adj ∧
    ((expOf .single l).toNat : Int) - Format.single.adj ≤ 253) ∧
  (∀ l : Word64, expOf .double l ≠ 0 →
    -1 ≤ ((expOf .double l).toNat : Int) - Format.double.adj ∧
    ((expOf .double l).toNat : Int) - Format.double.adj ≤ 2045) ∧
  (∀ p : Word32, p.toNat % 2 ^ 31 ≠ 0 → (expOf .single p).toNat ≠ 255 →
    -22 ≤ (encodeOperand .single p).1 ∧ (encodeOperand .single p).1 + Format.single.adj ≤ 256) ∧
  (∀ p : Word64, p.toNat % 2 ^ 63 ≠ 0 → (expOf .double p).toNat ≠ 2047 →
    -51 ≤ (encodeOperand .double p).1 ∧ (encodeOperand .double p).1 + Format.double.adj ≤ 2048)

/-! ## The machine -/

/-- A step is the block's function: from every state it answers a next state whose outputs are the port-level closed form of
the inputs that stood on the ports, and whose inputs are unchanged. Rests on decisions D2, D3, D4, D7, D8, D9, D12, D21. -/
def Obligations.StepIsThePortFunction : Prop :=
  ∀ s : State, ∃ t : State, step s = .next t ∧ t.op = s.op ∧ t.a = s.a ∧ t.result = portFunction s.presented

/-- 10_state.md R26: no hidden state that an operation can observe. Evaluating the same pair in any two states, whatever was
evaluated before, gives the same outputs, and evaluating it again changes nothing. -/
def Obligations.SamePairGivesSameOutputs : Prop :=
  ∀ (p : Presentation) (s s' : State), ∃ t t' : State,
    evaluate p s = .next t ∧ evaluate p s' = .next t' ∧ t.result = t'.result ∧ step t = .next t

/-- 20_memory.md R51: a result depends on its own pair and on nothing else. Of two pairs, each gives the same outputs
whether it is evaluated first or second on one instance of the block, or alone on another instance. -/
def Obligations.EvaluationsCommute : Prop :=
  ∀ (p q : Presentation) (s other : State), ∃ t u t' u' v w : State,
    evaluate p s = .next t ∧ evaluate q t = .next u ∧
    evaluate q s = .next u' ∧ evaluate p u' = .next t' ∧
    evaluate p other = .next v ∧ evaluate q other = .next w ∧
    t.result = t'.result ∧ t.result = v.result ∧ u.result = u'.result ∧ u.result = w.result

/-- Every step keeps the machine settled: the outputs are the function of the inputs on the ports (10_state.md R32). It holds
from every state, reached or not. Rests on the decisions `portFunction` rests on. -/
def Obligations.StepKeepsSettled : Prop :=
  ∀ s t : State, s.Settled → step s = .next t → t.Settled

/-- Every step keeps the outputs legal for the presented operation: the unused half of `y` clear, only patterns the operation
can produce, only its own tags, and with a failure tag only the value that accompanies it (30_encoding.md R73,
60_exceptions.md R141 to R144). Rests on decisions D4, D7, D9, D12. -/
def Obligations.StepKeepsOutputsLegal : Prop :=
  ∀ s t : State, s.OutputsLegal → step s = .next t → t.OutputsLegal

/-- The state after reset is settled and its outputs are legal (70_reset_and_hazards.md R160: the outputs are, as always, the
function of the inputs). That the inputs stand at zero is the model's choice, log entry 2. -/
def Obligations.ResetIsSettledAndLegal : Prop := State.reset.Settled ∧ State.reset.OutputsLegal

/-- A step runs the decoded instruction: `step` is `exec` of the instruction on the ports, with nothing around it; and
presenting an encoded instruction runs exactly that instruction. -/
def Obligations.StepRunsTheDecodedInstruction : Prop :=
  (∀ (s : State) (i : Instr), decode s.presented = i → step s = exec i s) ∧
  (∀ (i : Instr) (s : State), evaluate (encode i) s = exec i (s.present (encode i)))

/-- No operation stops: `exec` answers a next state for every instruction in every state, its tag is the code of one the
operation can give, and the inputs are unchanged (00_scope.md section 5, 60_exceptions.md section 2). The codes are
decision D4. -/
def Obligations.EveryOperationCompletes : Prop :=
  ∀ (i : Instr) (s : State), ∃ (t : State) (c : Cond),
    exec i s = .next t ∧ t.cond = c.code ∧ mayGive i.mnemonic c = true ∧ t.op = s.op ∧ t.a = s.a

/-- The bits a single-width operation does not use (10_state.md R29, decision D12): `a[63:32]` is ignored and `y[63:32]` is
0. -/
def Obligations.SingleWidthIgnoresUpperHalf : Prop :=
  ∀ (op : BitVec 2) (x x' : Word32) (lo : Word32) (s : State), op.getLsbD 0 = false →
    ∃ t t' : State, evaluate ⟨op, x ++ lo⟩ s = .next t ∧ evaluate ⟨op, x' ++ lo⟩ s = .next t' ∧
      t.result = t'.result ∧ t.y.extractLsb' 32 32 = 0

/-- The codes of the four outcome tags (60_exceptions.md R144, decision D4). -/
def Obligations.OutcomeCodes : Prop :=
  Cond.ok.code = 0b00#2 ∧ Cond.reservedOperand.code = 0b01#2 ∧
  Cond.noEquivalent.code = 0b10#2 ∧ Cond.overflow.code = 0b11#2
end

