-- ==== Sys2Proof/Laws/Fields.lean ====
section
/-! SUPPORT. The fields of a word as numbers, and a word as its fields. -/

namespace Sys2Proof.Machine

variable (f : Format)

theorem signOf_toNat (w : f.Word) : (signOf f w).toNat = w.toNat / 2 ^ (f.expSize + f.mantSize) := by
  have h : w.toNat / 2 ^ (f.expSize + f.mantSize) < 2 ^ 1 := by
    rw [Nat.div_lt_iff_lt_mul (by positivity), ← Nat.pow_add]
    exact Nat.add_assoc 1 f.expSize f.mantSize ▸ w.isLt
  rw [signOf, BitVec.extractLsb'_toNat, Nat.shiftRight_eq_div_pow, Nat.mod_eq_of_lt h]

theorem expOf_toNat (w : f.Word) : (expOf f w).toNat = w.toNat / 2 ^ f.mantSize % 2 ^ f.expSize := by
  rw [expOf, BitVec.extractLsb'_toNat, Nat.shiftRight_eq_div_pow]

theorem mantOf_toNat (w : f.Word) : (mantOf f w).toNat = w.toNat % 2 ^ f.mantSize := by
  rw [mantOf, BitVec.extractLsb'_toNat, Nat.shiftRight_zero]

theorem joinFields_toNat (s : BitVec 1) (e : BitVec f.expSize) (m : BitVec f.mantSize) :
    (joinFields f s e m).toNat = (s.toNat * 2 ^ f.expSize + e.toNat) * 2 ^ f.mantSize + m.toNat := by
  simp only [joinFields, BitVec.toNat_append]
  rw [← Nat.shiftLeft_add_eq_or_of_lt m.isLt, ← Nat.shiftLeft_add_eq_or_of_lt e.isLt,
    Nat.shiftLeft_eq, Nat.shiftLeft_eq]

/-- A number is its sign, exponent and mantissa parts. -/
theorem toNat_eq_fields (w : f.Word) :
    w.toNat = ((signOf f w).toNat * 2 ^ f.expSize + (expOf f w).toNat) * 2 ^ f.mantSize
      + (mantOf f w).toNat := by
  rw [signOf_toNat, expOf_toNat, mantOf_toNat, Nat.add_comm f.expSize, Nat.pow_add, ← Nat.div_div_eq_div_mul,
    Nat.div_add_mod', Nat.div_add_mod']

/-- A word is its three fields joined. -/
@[simp] theorem joinFields_fields (w : f.Word) :
    joinFields f (signOf f w) (expOf f w) (mantOf f w) = w :=
  BitVec.eq_of_toNat_eq ((joinFields_toNat f _ _ _).trans (toNat_eq_fields f w).symm)

@[simp] theorem mantOf_joinFields (s : BitVec 1) (e : BitVec f.expSize) (m : BitVec f.mantSize) :
    mantOf f (joinFields f s e m) = m := by
  apply BitVec.eq_of_toNat_eq
  rw [mantOf_toNat, joinFields_toNat, Nat.mul_add_mod', Nat.mod_eq_of_lt m.isLt]

theorem mul_add_div_of_lt (x : Nat) {b r : Nat} (h : r < b) : (x * b + r) / b = x := by
  rw [Nat.mul_comm, Nat.mul_add_div (Nat.zero_lt_of_lt h), Nat.div_eq_of_lt h, Nat.add_zero]

@[simp] theorem expOf_joinFields (s : BitVec 1) (e : BitVec f.expSize) (m : BitVec f.mantSize) :
    expOf f (joinFields f s e m) = e := by
  apply BitVec.eq_of_toNat_eq
  rw [expOf_toNat, joinFields_toNat, mul_add_div_of_lt _ m.isLt, Nat.mul_add_mod', Nat.mod_eq_of_lt e.isLt]

@[simp] theorem signOf_joinFields (s : BitVec 1) (e : BitVec f.expSize) (m : BitVec f.mantSize) :
    signOf f (joinFields f s e m) = s := by
  apply BitVec.eq_of_toNat_eq
  rw [signOf_toNat, joinFields_toNat, Nat.add_comm f.expSize, Nat.pow_add, ← Nat.div_div_eq_div_mul,
    mul_add_div_of_lt _ m.isLt, mul_add_div_of_lt _ e.isLt]

/-- Two words with the same fields are the same word. -/
theorem eq_of_fields {v w : f.Word} (hs : signOf f v = signOf f w) (he : expOf f v = expOf f w)
    (hm : mantOf f v = mantOf f w) : v = w := by
  rw [← joinFields_fields f v, ← joinFields_fields f w, hs, he, hm]

end Sys2Proof.Machine
end

