-- ==== Sys2Proof/Laws/Layout.lean ====
section
/-! SUPPORT. The port layout of a storage unit: the two directions undo each other (spec/00_scope.md R11, 10_state.md R29). -/

namespace Sys2Proof

@[simp] theorem be32Inv_be32 (u : SingleUnit) : be32Inv (be32 u) = u := by
  obtain ⟨b0, b1, b2, b3⟩ := u
  simp only [be32Inv, be32, SingleUnit.mk.injEq]
  refine ⟨?_, ?_, ?_, ?_⟩ <;>
  · ext i hi
    simp only [BitVec.getElem_extractLsb', BitVec.getLsbD_append]
    interval_cases i <;> simp

@[simp] theorem be32_be32Inv (s : Word32) : be32 (be32Inv s) = s := by
  apply BitVec.eq_of_getLsbD_eq
  intro i hi
  simp only [be32, be32Inv, BitVec.getLsbD_append, BitVec.getLsbD_extractLsb']
  interval_cases i <;> simp

@[simp] theorem DoubleUnit.first_ofRuns (x y : SingleUnit) : (DoubleUnit.ofRuns x y).first = x := rfl
@[simp] theorem DoubleUnit.last_ofRuns (x y : SingleUnit) : (DoubleUnit.ofRuns x y).last = y := rfl
@[simp] theorem DoubleUnit.ofRuns_first_last (u : DoubleUnit) : DoubleUnit.ofRuns u.first u.last = u := rfl

@[simp] theorem be64_be64Inv (s : Word64) : be64 (be64Inv s) = s := by
  simp only [be64, be64Inv, DoubleUnit.first_ofRuns, DoubleUnit.last_ofRuns, be32_be32Inv]
  exact BitVec.extractLsb'_append_extractLsb'_eq_extractLsb' (by omega) |>.trans (by simp)

end Sys2Proof
end

