-- ==== Sys2Proof/Laws/Ops.lean ====
section
/-! SUPPORT. What each shared operation does, said once: `dec` and `enc` case by case in the order of their tests
(spec/60_exceptions.md R148), and the re-normalisation loop. -/

namespace Sys2Proof.Machine

variable (f : Format)

theorem dec_of_reserved {l : f.Word} (he : expOf f l = 0) (hs : signOf f l = 1) :
    dec f l = (reservedFallback f, .reservedOperand) := by
  simp [dec, he, hs]

theorem dec_of_zero {l : f.Word} (he : expOf f l = 0) (hs : signOf f l ≠ 1) : dec f l = (0, .ok) := by
  simp only [dec, he, if_true, hs, if_false]

theorem dec_of_normal {l : f.Word} (he : expOf f l ≠ 0) (h : 0 < ((expOf f l).toNat : Int) - f.adj) :
    dec f l = (joinFields f (signOf f l) (expField f ((expOf f l).toNat - f.adj)) (mantOf f l), .ok) := by
  simp only [dec, he, if_false, h, if_true]

theorem dec_of_subnormal {l : f.Word} (he : expOf f l ≠ 0) (h : ¬ 0 < ((expOf f l).toNat : Int) - f.adj) :
    dec f l = (joinFields f (signOf f l) 0
      ((withHidden f (mantOf f l) >>> (1 - (((expOf f l).toNat : Int) - f.adj)).toNat).setWidth f.mantSize),
      .ok) := by
  simp only [dec, he, if_false, h]

theorem enc_of_zero {p : f.Word} (he : expOf f p = 0) (hm : mantOf f p = 0) : enc f p = (0, .ok) := by
  simp [enc, he, hm]

theorem enc_of_special {p : f.Word} (h0 : ¬ (expOf f p = 0 ∧ mantOf f p = 0))
    (he : expOf f p = BitVec.allOnes f.expSize) :
    enc f p = (joinFields f (signOf f p) (BitVec.allOnes f.expSize) 0, .noEquivalent) := by
  rw [enc, if_neg h0, if_pos he]

theorem enc_of_underflow {p : f.Word} (h0 : ¬ (expOf f p = 0 ∧ mantOf f p = 0))
    (he : expOf f p ≠ BitVec.allOnes f.expSize) (h : (encodeOperand f p).1 + f.adj ≤ 0) :
    enc f p = (0, .ok) := by
  simp only [enc, h0, if_false, he, h, if_true]

theorem enc_of_overflow {p : f.Word} (h0 : ¬ (expOf f p = 0 ∧ mantOf f p = 0))
    (he : expOf f p ≠ BitVec.allOnes f.expSize) (h : ¬ (encodeOperand f p).1 + f.adj ≤ 0)
    (h' : f.lexpMax < (encodeOperand f p).1 + f.adj) :
    enc f p
      = (joinFields f (signOf f p) (BitVec.allOnes f.expSize) (BitVec.allOnes f.mantSize), .overflow) := by
  simp only [enc, h0, if_false, he, h, h', if_true]

theorem enc_of_number {p : f.Word} (h0 : ¬ (expOf f p = 0 ∧ mantOf f p = 0))
    (he : expOf f p ≠ BitVec.allOnes f.expSize) (h : ¬ (encodeOperand f p).1 + f.adj ≤ 0)
    (h' : ¬ f.lexpMax < (encodeOperand f p).1 + f.adj) :
    enc f p = (joinFields f (signOf f p) (expField f ((encodeOperand f p).1 + f.adj)) (encodeOperand f p).2,
      .ok) := by
  simp only [enc, h0, if_false, he, h, h']

theorem encodeOperand_of_normal {p : f.Word} (he : expOf f p ≠ 0) :
    encodeOperand f p = (((expOf f p).toNat : Int), mantOf f p) := by
  rw [encodeOperand, if_neg he]

theorem encodeOperand_of_subnormal {p : f.Word} (he : expOf f p = 0) :
    encodeOperand f p = renorm f (mantOf f p) := by
  rw [encodeOperand, if_pos he]

/-- The hidden bit stands above the mantissa: `HIDDEN_BIT | m` is `2^MW + m`. -/
theorem withHidden_toNat (m : BitVec f.mantSize) : (withHidden f m).toNat = 2 ^ f.mantSize + m.toNat := by
  have hm := m.isLt
  have h1 : f.hiddenBit.toNat = 2 ^ f.mantSize := by
    simp only [Format.hiddenBit, BitVec.toNat_shiftLeft, BitVec.toNat_ofNat, Nat.shiftLeft_eq]
    rw [Nat.mod_eq_of_lt (Nat.one_lt_two_pow (by omega)), Nat.one_mul,
      Nat.mod_eq_of_lt (Nat.pow_lt_pow_right (by omega) (by omega))]
  rw [withHidden, BitVec.toNat_or, h1, BitVec.toNat_setWidth,
    Nat.mod_eq_of_lt (hm.trans (Nat.pow_lt_pow_right (by omega) (by omega)))]
  have := Nat.two_pow_add_eq_or_of_lt hm 1
  simpa using this.symm

/-- The re-normalisation loop shifts left `k` times, one exponent step each, losing no bit, and stops before its bound only
when the hidden bit has appeared. -/
theorem renormLoop_spec (ms n : Nat) (m : BitVec (ms + 1)) (e : Int) :
    ∃ k ≤ n, m.toNat * 2 ^ k < 2 ^ (ms + 1) ∧ (k < n → 2 ^ ms ≤ m.toNat * 2 ^ k) ∧
      renormLoop ms n m e = (e - k, BitVec.ofNat (ms + 1) (m.toNat * 2 ^ k)) := by
  induction n generalizing m e with
  | zero => exact ⟨0, le_rfl, by simpa using m.isLt, by omega, by simp [renormLoop]⟩
  | succ n ih =>
    by_cases h : m.getLsbD ms
    · refine ⟨0, by omega, by simpa using m.isLt, fun _ => ?_, by simp [renormLoop, h]⟩
      simpa using Nat.ge_two_pow_of_testBit h
    · have hlt : m.toNat < 2 ^ ms := by
        refine Nat.lt_of_not_le fun hle => h ?_
        rw [BitVec.getLsbD, Nat.testBit_eq_decide_div_mod_eq]
        have hd : m.toNat / 2 ^ ms = 1 := by
          have hlt := m.isLt
          rw [Nat.pow_succ] at hlt
          exact Nat.div_eq_of_lt_le (by omega) (by omega)
        simp [hd]
      have hs : (m <<< 1).toNat = m.toNat * 2 := by
        rw [BitVec.toNat_shiftLeft, Nat.shiftLeft_eq, Nat.pow_one, Nat.mod_eq_of_lt (by rw [Nat.pow_succ]; omega)]
      obtain ⟨k, hk, h1, h2, h3⟩ := ih (m <<< 1) (e - 1)
      rw [hs, Nat.mul_assoc, ← Nat.pow_succ'] at h1 h2 h3
      refine ⟨k + 1, by omega, h1, fun hk' => h2 (by omega), ?_⟩
      simp only [renormLoop, h, if_false, h3, Bool.false_eq_true]
      simp only [Prod.mk.injEq, and_true, Nat.cast_add, Nat.cast_one]
      omega

end Sys2Proof.Machine
end

