-- ==== Sys2Proof/Laws/PerInstr.lean ====
section
/-! SUPPORT. Statements made per instruction. `PresentedAsWritten`: the line that writes an instruction is well formed, and the
code it is presented with selects the mnemonic it is written with (spec/30_encoding.md R60, R77). -/

namespace Sys2Proof.Laws.PresentedAsWritten

def Statement (i : Instr) : Prop :=
  i.toLine.wellFormed = true ∧ Mnemonic.ofOp (encode i).op = i.toLine.mnemonic

theorem decodeSingle (unit : SingleUnit) : Statement (.decodeSingle unit) := ⟨rfl, rfl⟩

theorem decodeDouble (unit : DoubleUnit) : Statement (.decodeDouble unit) := ⟨rfl, rfl⟩

theorem encodeSingle (pattern : Word32) : Statement (.encodeSingle pattern) :=
  ⟨by simp only [Line.wellFormed, Instr.toLine, Line.parse, pattern.isLt, if_true], rfl⟩

theorem encodeDouble (pattern : Word64) : Statement (.encodeDouble pattern) :=
  ⟨by simp only [Line.wellFormed, Instr.toLine, Line.parse, pattern.isLt, if_true], rfl⟩

end Sys2Proof.Laws.PresentedAsWritten
end

