-- ==== Sys2Proof/Laws/State.lean ====
section
/-! SUPPORT. The fields of the state after each update, and what each shared operation on the state can do. -/

namespace Sys2Proof.Machine

@[simp] theorem State.drive_op (s : State) (y : Word64) (c : Cond) : (s.drive y c).op = s.op := rfl
@[simp] theorem State.drive_a (s : State) (y : Word64) (c : Cond) : (s.drive y c).a = s.a := rfl
@[simp] theorem State.drive_y (s : State) (y : Word64) (c : Cond) : (s.drive y c).y = y := rfl
@[simp] theorem State.drive_cond (s : State) (y : Word64) (c : Cond) : (s.drive y c).cond = c.code := rfl
@[simp] theorem State.drive_presented (s : State) (y : Word64) (c : Cond) :
    (s.drive y c).presented = s.presented := rfl
@[simp] theorem State.drive_result (s : State) (y : Word64) (c : Cond) :
    (s.drive y c).result = ⟨y, c.code⟩ := rfl
@[simp] theorem State.drive_drive (s : State) (y y' : Word64) (c c' : Cond) :
    (s.drive y c).drive y' c' = s.drive y' c' := rfl

@[simp] theorem State.present_op (s : State) (p : Presentation) : (s.present p).op = p.op := rfl
@[simp] theorem State.present_a (s : State) (p : Presentation) : (s.present p).a = p.a := rfl
@[simp] theorem State.present_y (s : State) (p : Presentation) : (s.present p).y = s.y := rfl
@[simp] theorem State.present_cond (s : State) (p : Presentation) : (s.present p).cond = s.cond := rfl
@[simp] theorem State.present_presented (s : State) (p : Presentation) : (s.present p).presented = p := rfl
@[simp] theorem State.present_present (s : State) (p q : Presentation) :
    (s.present p).present q = s.present q := rfl

@[simp] theorem State.withFetchWord_presented (s : State) (n w : Nat) :
    (s.withFetchWord n w).presented = ⟨BitVec.ofNat 2 w, 0#64⟩ := rfl
@[simp] theorem State.withFetchWord_y (s : State) (n w : Nat) : (s.withFetchWord n w).y = s.y := rfl
@[simp] theorem State.withFetchWord_cond (s : State) (n w : Nat) : (s.withFetchWord n w).cond = s.cond := rfl

/-- `deliver` answers a next state and nothing else. -/
@[simp] theorem deliver_eq (y : Word64) (c : Cond) (s : State) : deliver y c s = .next (s.drive y c) := rfl

/-- The value and the tag an instruction delivers. -/
def delivered : Instr → Word64 × Cond
  | .decodeSingle u => ((dec32 (unpack32 u)).1.setWidth 64, (dec32 (unpack32 u)).2)
  | .decodeDouble u => dec64 (unpack64 u)
  | .encodeSingle p => ((be32 (pack32 (enc32 p).1)).setWidth 64, (enc32 p).2)
  | .encodeDouble p => (be64 (pack64 (enc64 p).1), (enc64 p).2)

/-- Everything `exec` can do: drive the two outputs with a value and a tag that depend on the instruction alone. -/
theorem exec_eq_drive (i : Instr) (s : State) :
    exec i s = .next (s.drive (delivered i).1 (delivered i).2) := by
  cases i <;> rfl

/-- Everything `step` can do. -/
theorem step_eq_drive (s : State) :
    step s = .next (s.drive (delivered (decode s.presented)).1 (delivered (decode s.presented)).2) :=
  exec_eq_drive _ s

/-- Everything a presented evaluation can do. -/
theorem evaluate_eq_drive (p : Presentation) (s : State) :
    evaluate p s = .next ((s.present p).drive (delivered (decode p)).1 (delivered (decode p)).2) :=
  step_eq_drive (s.present p)

/-- A run's results are those of its pairs one by one: no pair influences another (spec/10_state.md R20,
70_reset_and_hazards.md R167). -/
theorem results_eq_map (ps : List Presentation) (s : State) :
    results ps s = ps.map fun p => ⟨(delivered (decode p)).1, (delivered (decode p)).2.code⟩ := by
  induction ps generalizing s with
  | nil => rfl
  | cons p ps ih => simp [results, evaluate_eq_drive, ih]

end Sys2Proof.Machine
end

