-- ==== Sys2Proof/Tests/Slice0.lean ====
section
/-! SUPPORT. Tests. Expected results are those of spec/95_test_vectors.md (S1 to S7 are the source's own) and of the examples in
the rules. After them, one witness for the hypotheses of each statement that has any. -/

namespace Sys2Proof.Tests

open Sys2Proof Sys2Proof.Machine

/-- The outputs of one step on a presented pair, from a state whose outputs hold something else. -/
def outputsOf (op : BitVec 2) (a : Word64) : Option Result :=
  match step ⟨op, a, 0xDEAD#64, 0b11#2⟩ with
  | .next t => some t.result
  | .fault _ => none
  | .refused _ => none

/-! ## Decoding, from the words of 30_encoding.md R60 and R77 -/

theorem test_decode_decodeSingle :
    decode ⟨0b00#2, 0x0000000000004080#64⟩ = .decodeSingle ⟨0x00, 0x00, 0x40, 0x80⟩ := by decide

theorem test_decode_decodeDouble :
    decode ⟨0b01#2, 0x2D18544421FB4029#64⟩
      = .decodeDouble ⟨0x2D, 0x18, 0x54, 0x44, 0x21, 0xFB, 0x40, 0x29⟩ := by decide

theorem test_decode_encodeSingle :
    decode ⟨0b10#2, 0xDEADBEEF3F800000#64⟩ = .encodeSingle 0x3F800000#32 := by decide

theorem test_decode_encodeDouble :
    decode ⟨0b11#2, 0x400921FB54442D18#64⟩ = .encodeDouble 0x400921FB54442D18#64 := by decide

theorem test_decode_refuses_wider_code : decodeOpCode 4 0#64 = .error (.unassignedOp 4) := by decide

theorem test_decodeTableWord :
    decodeTableWord 8 2 = some (.encodeSingle 0#32) ∧ decodeTableWord 8 0x82 = none := by decide

/-! ## Lines: one ill-formed line for each check of WellFormed -/

theorem test_line_wellFormed :
    (Line.mk .decodeSingle (.bytes [0x00, 0x00, 0x40, 0x80])).wellFormed = true := by decide

theorem test_line_short_unit :
    (Line.mk .decodeSingle (.bytes [0x00, 0x00, 0x40])).parse = .error (.unitLength 3) := by decide

theorem test_line_single_unit_for_double :
    (Line.mk .decodeDouble (.bytes [0x2D, 0x18, 0x54, 0x44])).parse = .error (.unitLength 4) := by decide

theorem test_line_pattern_for_decode :
    (Line.mk .decodeSingle (.pattern 0x4080)).parse = .error .operandKind ∧
    (Line.mk .decodeDouble (.pattern 0x4080)).parse = .error .operandKind := by decide

theorem test_line_bytes_for_encode :
    (Line.mk .encodeSingle (.bytes [0x00, 0x00, 0x40, 0x80])).parse = .error .operandKind ∧
    (Line.mk .encodeDouble (.bytes [0x00])).parse = .error .operandKind := by decide

theorem test_line_pattern_too_wide :
    (Line.mk .encodeSingle (.pattern 0x100000000)).parse = .error .patternWidth ∧
    (Line.mk .encodeDouble (.pattern 0x10000000000000000)).parse = .error .patternWidth := by decide

/-! ## The bit-layout utility (table 2.1) -/

theorem test_swap16 : swap16 0x12345678#32 = 0x56781234#32 := by decide

theorem test_unpack32_pack32 :
    unpack32 ⟨0x01, 0x02, 0x03, 0x04⟩ = 0x03040102#32 ∧
    pack32 0x11223344#32 = ⟨0x33, 0x44, 0x11, 0x22⟩ := by decide

theorem test_unpack64_pack64 :
    unpack64 ⟨0x01, 0x02, 0x03, 0x04, 0x05, 0x06, 0x07, 0x08⟩ = 0x0708050603040102#64 ∧
    pack64 0x0102030405060708#64 = ⟨0x07, 0x08, 0x05, 0x06, 0x03, 0x04, 0x01, 0x02⟩ := by decide

/-! ## The operations, on the ports (tables 2.2 to 2.6; S4 and S5, S7, S1, S6) -/

theorem test_decodeSingle_values :
    outputsOf 0b00#2 0xDEADBEEF00004080#64 = some ⟨0x3F800000#64, 0b00#2⟩ ∧
    outputsOf 0b00#2 0x000000001CEA0308#64 = some ⟨0x02081CEA#64, 0b00#2⟩ ∧
    outputsOf 0b00#2 0x00000000FFFF7FFF#64 = some ⟨0x7EFFFFFF#64, 0b00#2⟩ := by decide

theorem test_decodeSingle_corners :
    outputsOf 0b00#2 0x00000000FFFF807F#64 = some ⟨0#64, 0b01#2⟩ ∧
    outputsOf 0b00#2 0x00000000FFFF007F#64 = some ⟨0#64, 0b00#2⟩ ∧
    outputsOf 0b00#2 0x00000000FFFF00FF#64 = some ⟨0x003FFFFF#64, 0b00#2⟩ ∧
    outputsOf 0b00#2 0x0000000000018100#64 = some ⟨0x80400000#64, 0b00#2⟩ := by decide

theorem test_decodeDouble_values :
    outputsOf 0b01#2 0x2D18544421FB4029#64 = some ⟨0x400921FB54442D18#64, 0b00#2⟩ ∧
    outputsOf 0b01#2 0x000000000000C010#64 = some ⟨0xBFF0000000000000#64, 0b00#2⟩ := by decide

theorem test_decodeDouble_corners :
    outputsOf 0b01#2 0xFFFFFFFFFFFF800F#64 = some ⟨0#64, 0b01#2⟩ ∧
    outputsOf 0b01#2 0x0000000000030010#64 = some ⟨0x00040000C0000000#64, 0b00#2⟩ ∧
    outputsOf 0b01#2 0x0000000000000030#64 = some ⟨0x0010000000000000#64, 0b00#2⟩ := by decide

theorem test_encodeSingle_values :
    outputsOf 0b10#2 0x000000003F800000#64 = some ⟨0x4080#64, 0b00#2⟩ ∧
    outputsOf 0b10#2 0x00000000003FFFFF#64 = some ⟨0xFFFC00FF#64, 0b00#2⟩ ∧
    outputsOf 0b10#2 0x0000000000400001#64 = some ⟨0x00020100#64, 0b00#2⟩ := by decide

theorem test_encodeSingle_corners :
    outputsOf 0b10#2 0x00000000801FFFFF#64 = some ⟨0#64, 0b00#2⟩ ∧
    outputsOf 0b10#2 0x00000000FFFFFFFF#64 = some ⟨0xFF80#64, 0b10#2⟩ ∧
    outputsOf 0b10#2 0x000000007F000000#64 = some ⟨0xFFFF7FFF#64, 0b11#2⟩ ∧
    outputsOf 0b10#2 0x0000000080000000#64 = some ⟨0#64, 0b00#2⟩ := by decide

theorem test_encodeDouble_values :
    outputsOf 0b11#2 0x400921FB54442D18#64 = some ⟨0x2D18544421FB4029#64, 0b00#2⟩ ∧
    outputsOf 0b11#2 0x0004000040000000#64 = some ⟨0x0000000000010010#64, 0b00#2⟩ := by decide

theorem test_encodeDouble_corners :
    outputsOf 0b11#2 0x8003FFFFFFFFFFFF#64 = some ⟨0#64, 0b00#2⟩ ∧
    outputsOf 0b11#2 0xFFF0000000000000#64 = some ⟨0xFFF0#64, 0b10#2⟩ ∧
    outputsOf 0b11#2 0x7FE0000000000000#64 = some ⟨0xFFFFFFFFFFFF7FFF#64, 0b11#2⟩ := by decide

/-- The longest loop, `k = 52`, `e = 1 - 52` (R126). -/
theorem test_renorm_smallest_double_subnormal : renorm .double 1#52 = (-51, 0#52) := by decide +kernel

/-! ## The constants (00_scope.md R6 to R8) and the two-half loops (R123, R126) -/

theorem test_constants :
    Format.single.adj = 2 ∧ Format.double.adj = 2 ∧
    Format.single.lexpMax = 255 ∧ Format.double.lexpMax = 2047 ∧
    Format.single.signBit = 0x80000000#32 ∧ Format.double.signBit = 0x8000000000000000#64 ∧
    Format.single.expMask = 0x7F800000#32 ∧ Format.double.expMask = 0x7FF0000000000000#64 ∧
    Format.single.mantMask = 0x007FFFFF#32 ∧ Format.double.mantMask = 0x000FFFFFFFFFFFFF#64 ∧
    Format.single.hiddenBit = 0x800000#24 ∧ Format.double.hiddenBit = 0x10000000000000#53 := by decide

theorem test_halves :
    decodeSubnormalHalves 0x0020000100000000#64 = 0x0008000080000000#64 ∧
    renormHalves 0x8000080000000#52 = (0, 0x0000100000000#52) := by decide

/-! ## A run (programs P2 and P4): conditions leave nothing behind -/

theorem test_run_goes_on_after_a_condition :
    results [⟨0b00#2, 0x00008000#64⟩, ⟨0b00#2, 0x00030080#64⟩] State.reset
      = [⟨0#64, 0b01#2⟩, ⟨0x00200000#64, 0b00#2⟩] := by decide

/-- Program P1: each decode takes the bytes the encode before it gave. -/
theorem test_program_P1 :
    runProgram [⟨.encodeSingle, .written (.pattern 0x40600000)⟩, ⟨.decodeSingle, .earlier 0⟩,
        ⟨.encodeSingle, .written (.pattern 0xBF800000)⟩, ⟨.decodeSingle, .earlier 2⟩] State.reset []
      = .ok [(.bytes [0x00, 0x00, 0x41, 0x60], 0b00#2), (.pattern 0x40600000, 0b00#2),
          (.bytes [0x00, 0x00, 0xC0, 0x80], 0b00#2), (.pattern 0xBF800000, 0b00#2)] := by decide +kernel

/-- Program P3's subnormal: the bit crosses the halves and comes back. -/
theorem test_program_P3 :
    runProgram [⟨.encodeDouble, .written (.pattern 0x0008000080000000)⟩, ⟨.decodeDouble, .earlier 0⟩]
        State.reset []
      = .ok [(.bytes [0x00, 0x00, 0x00, 0x00, 0x00, 0x01, 0x00, 0x20], 0b00#2),
          (.pattern 0x0008000080000000, 0b00#2)] := by decide +kernel

/-! ## Witnesses: a concrete case that meets the hypotheses of each statement that has any, at the ends of its range -/

/-- The hypothesis on the format of every statement about both widths. -/
theorem witness_formats :
    (Format.single = .single ∨ Format.single = .double) ∧ (Format.double = .single ∨ Format.double = .double) := by
  decide

theorem witness_LinesWriteExactlyTheInstructions :
    (Line.mk .decodeSingle (.bytes [0x00, 0x00, 0x40, 0x80])).parse
      = .ok (.decodeSingle ⟨0x00, 0x00, 0x40, 0x80⟩) := by decide

theorem witness_PartialUnitsAreRefused :
    ([0, 0, 0] : List Byte).length ≠ 4 ∧ ([0, 0, 0, 0, 0] : List Byte).length ≠ 4 ∧
    ([0, 0, 0, 0, 0, 0, 0] : List Byte).length ≠ 8 ∧ 2 ^ 32 ≤ 4294967296 ∧
    2 ^ 64 ≤ 18446744073709551616 := by decide

theorem witness_Swap16ExchangesTheHalves :
    (0xABCDABCD#32).extractLsb' 0 16 = (0xABCDABCD#32).extractLsb' 16 16 := by decide

theorem witness_ReservedOperandExactly :
    (dec .single 0x807FFFFF#32).2 = .reservedOperand ∧
    (dec .double 0x8000000000000000#64).2 = .reservedOperand := by decide

theorem witness_DecodeSingleNormalIsExact :
    (expOf .single 0x01800000#32).toNat = 3 ∧ (expOf .single 0xFFFFFFFF#32).toNat = 255 := by decide

theorem witness_DecodeSingleSubnormalChops :
    (expOf .single 0x00FFFFFF#32).toNat = 1 ∧ (expOf .single 0x81000001#32).toNat = 2 ∧ 24 ≤ 24 := by
  decide

theorem witness_DecodeDoubleNormalIsExact :
    (expOf .double 0x0030000000000000#64).toNat = 3 ∧
    (expOf .double 0xFFFFFFFFFFFFFFFF#64).toNat = 2047 := by decide

/-- Also the hypotheses of the clauses of `HalfLoopsAgreeWithWideShifts` about a logical word. -/
theorem witness_DecodeDoubleSubnormalInHalves :
    (expOf .double 0x001FFFFFFFFFFFFF#64).toNat = 1 ∧
    (expOf .double 0x8020000000000001#64).toNat = 2 := by decide

theorem witness_HalfLoopsAgreeWithWideShifts :
    (0x080000#21 ++ 0x80000000#32).toNat * 2 ^ 1 < 2 ^ 53 ∧ (0#21 ++ 1#32).toNat * 2 ^ 52 < 2 ^ 53 ∧
    (1#52 ≠ 0) := by decide

theorem witness_RenormCountsFromExponentOne : (0x400000#23 ≠ 0) ∧ (1#23 ≠ 0) ∧ (1#52 ≠ 0) := by decide

theorem witness_EncodeSingleNoEquivalent :
    (expOf .single 0x7F800000#32).toNat = 255 ∧ (expOf .single 0x7FFFFFFF#32).toNat = 255 ∧
    signOf .single 0x7F800000#32 = signOf .single 0x7FFFFFFF#32 ∧
    (expOf .single 0xFF800001#32).toNat = 255 := by decide

theorem witness_EncodeSingleOverflow :
    (expOf .single 0x7F000000#32).toNat = 254 ∧ (expOf .single 0xFF7FFFFF#32).toNat = 254 ∧
    ieeeValue .single 0x7F000000#32 = some (2 ^ 127) := by decide +kernel

theorem witness_EncodeDoubleNoEquivalent :
    (expOf .double 0x7FF0000000000000#64).toNat = 2047 ∧ (expOf .double 0x7FF8000000000000#64).toNat = 2047 ∧
    signOf .double 0x7FF0000000000000#64 = signOf .double 0x7FF8000000000000#64 := by decide

theorem witness_EncodeDoubleOverflow :
    (expOf .double 0x7FE0000000000000#64).toNat = 2046 ∧ (expOf .double 0xFFEFFFFFFFFFFFFF#64).toNat = 2046 ∧
    ieeeValue .double 0x7FE0000000000000#64 = some (2 ^ 1023) := by decide +kernel

theorem witness_EncodePreservesValues :
    (enc .single 0x00200000#32).2 = .ok ∧ (enc .single 0x00200000#32).1 ≠ 0 ∧
    (enc .double 0x7FDFFFFFFFFFFFFF#64).2 = .ok ∧ (enc .double 0x7FDFFFFFFFFFFFFF#64).1 ≠ 0 := by decide

theorem witness_DecodeTruncatesTowardZero :
    legacyValue .single 0x40800000#32 = some 1 ∧ legacyValue .single 0x007FFFFF#32 = some 0 ∧
    legacyValue .double 0x0010000000000000#64 = some ((2 : ℚ) ^ (-1024 : ℤ)) ∧
    3 ≤ (expOf .single 0x40800000#32).toNat := by decide +kernel

theorem witness_IeeeSingleRoundTrip :
    0x00200000 ≤ (0x80200000#32).toNat % 2 ^ 31 ∧ (0x80200000#32).toNat % 2 ^ 31 ≤ 0x7EFFFFFF ∧
    0x00200000 ≤ (0x7EFFFFFF#32).toNat % 2 ^ 31 ∧ (0x7EFFFFFF#32).toNat % 2 ^ 31 ≤ 0x7EFFFFFF := by decide

theorem witness_IeeeDoubleRoundTrip :
    0x0004000000000000 ≤ (0x8004000000000000#64).toNat % 2 ^ 63 ∧
    (0x8004000000000000#64).toNat % 2 ^ 63 ≤ 0x7FDFFFFFFFFFFFFF ∧
    0x0004000000000000 ≤ (0x7FDFFFFFFFFFFFFF#64).toNat % 2 ^ 63 ∧
    (0x7FDFFFFFFFFFFFFF#64).toNat % 2 ^ 63 ≤ 0x7FDFFFFFFFFFFFFF := by decide

/-- Also the hypotheses of `LegacyMagnitudeRange`. -/
theorem witness_LegacyRoundTripLosesOnlyChoppedBits :
    legacyClass .single 0x00800003#32 = .number ∧ legacyClass .double 0xFFFFFFFFFFFFFFFF#64 = .number ∧
    legacyClass .single 0#32 = .trueZero ∧ legacyClass .double 0x000FFFFFFFFFFFFF#64 = .dirtyZero := by
  decide

theorem witness_NonzeroResultsKeepTheSign :
    (dec .single 0x80800000#32).1 ≠ 0 ∧ (enc .single 0x80200000#32).1 ≠ 0 ∧
    (enc .double 0xFFF0000000000000#64).2 ≠ .ok ∧ (enc .double 0x7FE0000000000000#64).2 ≠ .ok := by decide

theorem witness_ConversionsAreMonotone :
    legacyValue .single 0#32 = some 0 ∧ legacyValue .single 0x40800000#32 = some 1 ∧
    ieeeValue .single 0#32 = some 0 ∧ ieeeValue .single 0x3F800000#32 = some 1 ∧ (0 : ℚ) ≤ 1 ∧
    (enc .single 0#32).2 = .ok ∧ (enc .single 0x3F800000#32).2 = .ok := by decide +kernel

theorem witness_ExponentsStayInTheStatedRanges :
    expOf .single 0x00800000#32 ≠ 0 ∧ expOf .double 0x7FFFFFFFFFFFFFFF#64 ≠ 0 ∧
    (0x00000001#32).toNat % 2 ^ 31 ≠ 0 ∧ (expOf .single 0x00000001#32).toNat ≠ 255 ∧
    (0x7FEFFFFFFFFFFFFF#64).toNat % 2 ^ 63 ≠ 0 ∧ (expOf .double 0x7FEFFFFFFFFFFFFF#64).toNat ≠ 2047 := by
  decide

/-- A settled state whose outputs are legal, presented with `encodeSingle 1.0` and not the state after reset: the hypotheses
of `StepKeepsSettled` and `StepKeepsOutputsLegal`. -/
def encodedOne : State := ⟨0b10#2, 0x3F800000#64, 0x4080#64, 0b00#2⟩

theorem witness_StepKeepsSettled : encodedOne.Settled ∧ step encodedOne = .next encodedOne := by
  constructor
  · unfold State.Settled
    decide
  · rfl

theorem witness_StepKeepsOutputsLegal : encodedOne.OutputsLegal := by
  show encodedOne.y.extractLsb' 32 32 = 0 ∧ _ ∧ _
  decide

theorem witness_StepRunsTheDecodedInstruction :
    decode encodedOne.presented = .encodeSingle 0x3F800000#32 := by decide

theorem witness_SingleWidthIgnoresUpperHalf :
    (0b00#2).getLsbD 0 = false ∧ (0b10#2).getLsbD 0 = false := by decide

end Sys2Proof.Tests
end

section
/-! The block keeps no state between evaluations (spec/10_state.md R26): what an evaluation leaves on the outputs is read off
its pair, and the pair it leaves on the inputs is the one it was given. -/

namespace Sys2Proof.Machine

/-- The outputs after an evaluation are read off its pair: the state before it does not occur on the right. -/
theorem result_of_evaluate {p : Presentation} {s t : State} (h : evaluate p s = .next t) :
    t.result = ⟨(delivered (decode p)).1, (delivered (decode p)).2.code⟩ := by
  rw [evaluate_eq_drive] at h
  cases h
  exact State.drive_result ..

/-- A state that an evaluation has answered is a fixed point of `step`: the pair still stands on the ports, and driving the
outputs a second time replaces them by themselves. -/
theorem step_of_evaluate {p : Presentation} {s t : State} (h : evaluate p s = .next t) : step t = .next t := by
  rw [evaluate_eq_drive] at h
  cases h
  rw [step_eq_drive, State.drive_presented, State.present_presented, State.drive_drive]

/-- Settles O42: an evaluation always answers a state, and both of its outputs are read off the pair. -/
theorem samePairGivesSameOutputs : Obligations.SamePairGivesSameOutputs := by
  intro p s s'
  have h := evaluate_eq_drive p s
  have h' := evaluate_eq_drive p s'
  exact ⟨_, _, h, h', (result_of_evaluate h).trans (result_of_evaluate h').symm, step_of_evaluate h⟩

end Sys2Proof.Machine
end

section
/-! A result depends on its own pair and on nothing else (spec/20_memory.md R51), so any two evaluations commute, on one
instance of the block or on two. -/

namespace Sys2Proof.Machine

/-- Two evaluations of one pair leave the same outputs, whatever the two states they started from: what was evaluated before,
or on which instance. -/
theorem result_eq_of_evaluate {p : Presentation} {s s' t t' : State} (h : evaluate p s = .next t)
    (h' : evaluate p s' = .next t') : t.result = t'.result :=
  (result_of_evaluate h).trans (result_of_evaluate h').symm

/-- Settles O43: each of the six evaluations answers a state, and the four equalities compare evaluations of one pair. -/
theorem evaluationsCommute : Obligations.EvaluationsCommute := by
  intro p q s other
  have hp := evaluate_eq_drive p
  have hq := evaluate_eq_drive q
  exact ⟨_, _, _, _, _, _, hp s, hq _, hq s, hp _, hp other, hq other,
    result_eq_of_evaluate (hp s) (hp _), result_eq_of_evaluate (hp s) (hp other),
    result_eq_of_evaluate (hq s) (hq _), result_eq_of_evaluate (hq s) (hq other)⟩

end Sys2Proof.Machine
end

section
/-! With exponent field 0 a decode reads the sign and nothing else (spec/30_encoding.md R68), in either width: the mantissa of
the word does not occur on the right. -/

namespace Sys2Proof.Machine

variable (f : Format)

/-- Sign 1 and exponent 0 is the reserved operand, whatever the mantissa. -/
theorem dec_joinFields_reserved (m : BitVec f.mantSize) :
    dec f (joinFields f 1 0 m) = (reservedFallback f, .reservedOperand) :=
  dec_of_reserved f (expOf_joinFields f 1 0 m) (signOf_joinFields f 1 0 m)

/-- Sign 0 and exponent 0 is `+0`, the true zero and every dirty zero alike. -/
theorem dec_joinFields_zero (m : BitVec f.mantSize) : dec f (joinFields f 0 0 m) = (0, .ok) := by
  have hs : signOf f (joinFields f 0 0 m) ≠ 1 := by rw [signOf_joinFields]; decide
  exact dec_of_zero f (expOf_joinFields f 0 0 m) hs

/-- Settles O12: `{s, 0, m}` is the join of its fields, and the value of a reserved operand has no bit set at all, so none
in the magnitude. -/
theorem zeroExponentDecodeIgnoresMantissa : Obligations.ZeroExponentDecodeIgnoresMantissa := by
  intro m
  have hreserved : dec32 (1#1 ++ 0#8 ++ m) = (0, .reservedOperand) := dec_joinFields_reserved .single m
  have hzero : dec32 (0#1 ++ 0#8 ++ m) = (0, .ok) := dec_joinFields_zero .single m
  rw [hreserved]
  exact ⟨⟨rfl, BitVec.zero_and⟩, hzero⟩

end Sys2Proof.Machine
end

section
/-! The layout utility (spec/40_layout_utility.md R90 to R94). A part of a word that lies in one half stands in the other half
after `swap16`; the byte maps of `UNPACK` and `PACK`, and that each undoes the other, are read off that. -/

namespace Sys2Proof.Machine

/-- A part of a part is a part of the whole. -/
theorem extractLsb'_extractLsb' {w start len start' len' : Nat} (x : BitVec w) (h : start + len ≤ len') :
    (x.extractLsb' start' len').extractLsb' start len = x.extractLsb' (start' + start) len := by
  apply BitVec.eq_of_getLsbD_eq
  intro i hi
  have hin : start + i < len' := by omega
  simp only [BitVec.getLsbD_extractLsb', hi, hin, decide_true, Bool.true_and, Nat.add_assoc]

/-! ## `SWAP16` -/

theorem extractLsb'_swap16_lower (s : Word32) {i n : Nat} (h : i + n ≤ 16) :
    (swap16 s).extractLsb' i n = s.extractLsb' (16 + i) n := by
  rw [swap16, BitVec.extractLsb'_append_eq_of_add_le h, extractLsb'_extractLsb' s h]

theorem extractLsb'_swap16_upper (s : Word32) {i n : Nat} (h : i + n ≤ 16) :
    (swap16 s).extractLsb' (16 + i) n = s.extractLsb' i n := by
  rw [swap16, BitVec.extractLsb'_append_eq_of_le (Nat.le_add_right 16 i), Nat.add_sub_cancel_left,
    extractLsb'_extractLsb' s h, Nat.zero_add]

/-- The two halves of a swapped word, upper half first. -/
theorem swap16_halves (s : Word32) :
    (swap16 s).extractLsb' 16 16 = s.extractLsb' 0 16 ∧ (swap16 s).extractLsb' 0 16 = s.extractLsb' 16 16 :=
  ⟨extractLsb'_swap16_upper (i := 0) s (by decide), extractLsb'_swap16_lower (i := 0) s (by decide)⟩

@[simp] theorem swap16_swap16 (s : Word32) : swap16 (swap16 s) = s := by
  obtain ⟨hupper, hlower⟩ := swap16_halves s
  calc swap16 (swap16 s) = s.extractLsb' 16 16 ++ s.extractLsb' 0 16 := by rw [swap16, hlower, hupper]
    _ = s := BitVec.extractLsb'_append_extractLsb'

theorem swap16_of_equal_halves {s : Word32} (h : s.extractLsb' 0 16 = s.extractLsb' 16 16) : swap16 s = s := by
  calc swap16 s = s.extractLsb' 16 16 ++ s.extractLsb' 0 16 := by rw [swap16, h]
    _ = s := BitVec.extractLsb'_append_extractLsb'

/-- In each half of the result one of the two shifts has only zeros. -/
theorem swap16_eq_shifts (s : Word32) : swap16 s = (s <<< 16) ||| (s >>> 16) := by
  apply BitVec.eq_of_getLsbD_eq
  intro i hi
  simp only [swap16, BitVec.getLsbD_append, BitVec.getLsbD_extractLsb', BitVec.getLsbD_or,
    BitVec.getLsbD_shiftLeft, BitVec.getLsbD_ushiftRight]
  by_cases hlow : i < 16
  · simp [hlow]
  · have hupper : i - 16 < 16 := by omega
    have hout : s.getLsbD (16 + i) = false := BitVec.getLsbD_of_ge s _ (by omega)
    simp [hlow, hi, hupper, hout]

/-- Settles O6: every clause about all words is a lemma about `swap16`, and the example is computed. -/
theorem swap16ExchangesTheHalves : Obligations.Swap16ExchangesTheHalves := by
  refine ⟨fun s => ?_, by decide⟩
  obtain ⟨hupper, hlower⟩ := swap16_halves s
  exact ⟨hupper, hlower, swap16_eq_shifts s, swap16_swap16 s, swap16_of_equal_halves⟩

/-! ## `UNPACK32` and `PACK32` -/

/-- The bytes of a big-endian word are those of its unit. -/
theorem be32_bytes (u : SingleUnit) :
    (be32 u).extractLsb' 24 8 = u.b0 ∧ (be32 u).extractLsb' 16 8 = u.b1 ∧
    (be32 u).extractLsb' 8 8 = u.b2 ∧ (be32 u).extractLsb' 0 8 = u.b3 := by
  have h := be32Inv_be32 u
  exact ⟨congrArg SingleUnit.b0 h, congrArg SingleUnit.b1 h, congrArg SingleUnit.b2 h, congrArg SingleUnit.b3 h⟩

/-- The bytes of a swapped word, most significant first (the numerals of R91 and R92). -/
theorem swap16_bytes (s : Word32) :
    (swap16 s).extractLsb' 24 8 = s.extractLsb' 8 8 ∧ (swap16 s).extractLsb' 16 8 = s.extractLsb' 0 8 ∧
    (swap16 s).extractLsb' 8 8 = s.extractLsb' 24 8 ∧ (swap16 s).extractLsb' 0 8 = s.extractLsb' 16 8 :=
  ⟨extractLsb'_swap16_upper (i := 8) s (by decide), extractLsb'_swap16_upper (i := 0) s (by decide),
    extractLsb'_swap16_lower (i := 8) s (by decide), extractLsb'_swap16_lower (i := 0) s (by decide)⟩

theorem unpack32_bytes (u : SingleUnit) :
    (unpack32 u).extractLsb' 24 8 = u.b2 ∧ (unpack32 u).extractLsb' 16 8 = u.b3 ∧
    (unpack32 u).extractLsb' 8 8 = u.b0 ∧ (unpack32 u).extractLsb' 0 8 = u.b1 := by
  obtain ⟨s3, s2, s1, s0⟩ := swap16_bytes (be32 u)
  obtain ⟨b0, b1, b2, b3⟩ := be32_bytes u
  exact ⟨s3.trans b2, s2.trans b3, s1.trans b0, s0.trans b1⟩

@[simp] theorem pack32_unpack32 (u : SingleUnit) : pack32 (unpack32 u) = u := by
  rw [pack32, unpack32, swap16_swap16, be32Inv_be32]

@[simp] theorem unpack32_pack32 (l : Word32) : unpack32 (pack32 l) = l := by
  rw [unpack32, pack32, be32_be32Inv, swap16_swap16]

/-- Settles O7: the bytes of `PACK32` are those of the swapped word, as `be32Inv` takes them. -/
theorem unpack32AndPack32AreInverse : Obligations.Unpack32AndPack32AreInverse := by
  refine ⟨fun u => ?_, fun l => ?_, by decide⟩
  · obtain ⟨h3, h2, h1, h0⟩ := unpack32_bytes u
    exact ⟨rfl, h3, h2, h1, h0, pack32_unpack32 u⟩
  · obtain ⟨h3, h2, h1, h0⟩ := swap16_bytes l
    exact ⟨rfl, h3, h2, h1, h0, unpack32_pack32 l⟩

/-! ## `UNPACK64` and `PACK64` -/

theorem extractLsb'_unpack64_lower (u : DoubleUnit) {i n : Nat} (h : i + n ≤ 32) :
    (unpack64 u).extractLsb' i n = (unpack32 u.first).extractLsb' i n :=
  BitVec.extractLsb'_append_eq_of_add_le h

theorem extractLsb'_unpack64_upper (u : DoubleUnit) (i n : Nat) :
    (unpack64 u).extractLsb' (32 + i) n = (unpack32 u.last).extractLsb' i n := by
  rw [unpack64, BitVec.extractLsb'_append_eq_of_le (Nat.le_add_right 32 i), Nat.add_sub_cancel_left]

theorem unpack64_lower_bytes (u : DoubleUnit) :
    (unpack64 u).extractLsb' 24 8 = u.b2 ∧ (unpack64 u).extractLsb' 16 8 = u.b3 ∧
    (unpack64 u).extractLsb' 8 8 = u.b0 ∧ (unpack64 u).extractLsb' 0 8 = u.b1 := by
  obtain ⟨h3, h2, h1, h0⟩ := unpack32_bytes u.first
  have part {i : Nat} (h : i + 8 ≤ 32) := extractLsb'_unpack64_lower u h
  exact ⟨(part (by decide)).trans h3, (part (by decide)).trans h2, (part (by decide)).trans h1,
    (part (by decide)).trans h0⟩

theorem unpack64_upper_bytes (u : DoubleUnit) :
    (unpack64 u).extractLsb' 56 8 = u.b6 ∧ (unpack64 u).extractLsb' 48 8 = u.b7 ∧
    (unpack64 u).extractLsb' 40 8 = u.b4 ∧ (unpack64 u).extractLsb' 32 8 = u.b5 := by
  obtain ⟨h3, h2, h1, h0⟩ := unpack32_bytes u.last
  have part (i : Nat) := extractLsb'_unpack64_upper u i 8
  exact ⟨(part 24).trans h3, (part 16).trans h2, (part 8).trans h1, (part 0).trans h0⟩

/-- Reversing four 16-bit words exchanges the 32-bit halves and swaps each. -/
theorem reverse16x4_append (x y : Word32) : reverse16x4 (x ++ y) = swap16 y ++ swap16 x := by
  have lower {i : Nat} (h : i + 16 ≤ 32) : (x ++ y).extractLsb' i 16 = y.extractLsb' i 16 :=
    BitVec.extractLsb'_append_eq_of_add_le h
  have upper {i : Nat} (h : 32 ≤ i) : (x ++ y).extractLsb' i 16 = x.extractLsb' (i - 32) 16 :=
    BitVec.extractLsb'_append_eq_of_le h
  rw [reverse16x4, lower (by decide), lower (by decide), upper (by decide), upper (by decide)]
  exact BitVec.append_assoc

theorem unpack64_eq_reverse16x4 (u : DoubleUnit) : unpack64 u = reverse16x4 (be64 u) :=
  (reverse16x4_append (be32 u.first) (be32 u.last)).symm

@[simp] theorem pack64_unpack64 (u : DoubleUnit) : pack64 (unpack64 u) = u := by
  have hlower : (unpack64 u).extractLsb' 0 32 = unpack32 u.first := BitVec.extractLsb'_append_eq_right
  have hupper : (unpack64 u).extractLsb' 32 32 = unpack32 u.last := BitVec.extractLsb'_append_eq_left
  rw [pack64, hlower, hupper, pack32_unpack32, pack32_unpack32, DoubleUnit.ofRuns_first_last]

@[simp] theorem unpack64_pack64 (l : Word64) : unpack64 (pack64 l) = l := by
  rw [unpack64, pack64, DoubleUnit.first_ofRuns, DoubleUnit.last_ofRuns, unpack32_pack32, unpack32_pack32]
  exact BitVec.extractLsb'_append_extractLsb'

/-- Settles O8: the bytes come by halves; the unit of the rule's example is one that is not reversed byte by byte. -/
theorem unpack64AndPack64AreInverse : Obligations.Unpack64AndPack64AreInverse := by
  refine ⟨fun u => ?_, fun l => ?_, ⟨⟨0x2D, 0x18, 0x54, 0x44, 0x21, 0xFB, 0x40, 0x29⟩, by decide⟩, by decide⟩
  · obtain ⟨h7, h6, h5, h4⟩ := unpack64_upper_bytes u
    obtain ⟨h3, h2, h1, h0⟩ := unpack64_lower_bytes u
    exact ⟨rfl, h7, h6, h5, h4, h3, h2, h1, h0, unpack64_eq_reverse16x4 u, pack64_unpack64 u⟩
  · exact ⟨DoubleUnit.first_ofRuns .., DoubleUnit.last_ofRuns .., unpack64_pack64 l⟩

end Sys2Proof.Machine
end

section
/-! An all-ones exponent has no legacy equivalent (spec/41_single_width.md R109, 42_double_width.md R128): the encode keeps the
sign and nothing else, and answers `{s, ones, 0}`, in either width. That word is an infinity among the IEEE patterns and a
power of two among the legacy numbers. -/

namespace Sys2Proof.Machine

variable (f : Format)

/-- The test for an all-ones exponent decides alone: an exponent that is not 0 passes the test for a zero. -/
theorem enc_of_allOnes (hf : BitVec.allOnes f.expSize ≠ 0) {p : f.Word}
    (he : expOf f p = BitVec.allOnes f.expSize) :
    enc f p = (joinFields f (signOf f p) (BitVec.allOnes f.expSize) 0, .noEquivalent) := by
  have hnonzero : ¬ (expOf f p = 0 ∧ mantOf f p = 0) := fun h => hf (he.symm.trans h.1)
  exact enc_of_special f hnonzero he

theorem ieeeClass_joinFields_allOnes (hf : BitVec.allOnes f.expSize ≠ 0) (s : BitVec 1) :
    ieeeClass f (joinFields f s (BitVec.allOnes f.expSize) 0) = .infinity := by
  rw [ieeeClass, expOf_joinFields, mantOf_joinFields, if_neg hf, if_pos rfl, if_pos rfl]

/-- A legacy word with a non-zero exponent is a number, of the value R70 gives. -/
theorem legacyValue_of_number {l : f.Word} (he : expOf f l ≠ 0) :
    legacyValue f l = some (signFactor (signOf f l) * (2 ^ f.mantSize + ((mantOf f l).toNat : ℚ))
      * (2 : ℚ) ^ (((expOf f l).toNat : ℤ) - f.legacyBias - f.mantSize - 1)) := by
  have hclass : legacyClass f l = .number := if_neg he
  rw [legacyValue, hclass]

/-- With mantissa 0 only the hidden bit is left, so a number's magnitude is a power of two. -/
theorem legacyValue_joinFields_zero_mantissa (s : BitVec 1) {e : BitVec f.expSize} (he : e ≠ 0) :
    legacyValue f (joinFields f s e 0) = some (signFactor s * (2 : ℚ) ^ ((e.toNat : ℤ) - f.legacyBias - 1)) := by
  have hpow : (2 : ℚ) ^ f.mantSize * 2 ^ ((e.toNat : ℤ) - f.legacyBias - f.mantSize - 1)
      = 2 ^ ((e.toNat : ℤ) - f.legacyBias - 1) := by
    rw [← zpow_natCast, ← zpow_add₀ two_ne_zero]
    congr 1
    omega
  have hmant : (0 : BitVec f.mantSize).toNat = 0 := BitVec.toNat_zero
  rw [legacyValue_of_number f (by rwa [expOf_joinFields]), signOf_joinFields, expOf_joinFields,
    mantOf_joinFields, hmant, Nat.cast_zero, add_zero, mul_assoc, hpow]

/-! ## Single width -/

theorem joinFields_single_allOnes (s : BitVec 1) :
    joinFields .single s (BitVec.allOnes 8) 0 = if s = 1 then 0xFF800000#32 else 0x7F800000#32 := by
  revert s
  decide

theorem enc32_of_allOnes {p : Word32} (he : (expOf .single p).toNat = 255) :
    enc32 p = (joinFields .single (signOf .single p) (BitVec.allOnes 8) 0, .noEquivalent) :=
  enc_of_allOnes .single (by decide) (BitVec.eq_of_toNat_eq he)

theorem legacyValue_single_allOnes (s : BitVec 1) :
    legacyValue .single (joinFields .single s (BitVec.allOnes 8) 0) = some (signFactor s * 2 ^ 126) :=
  legacyValue_joinFields_zero_mantissa .single s (by decide)

/-- Settles O24: the answer is `{s, ones, 0}`, in which the mantissa does not occur; the class, the value and the numerals
are those of that word, and the examples are computed. -/
theorem encodeSingleNoEquivalent : Obligations.EncodeSingleNoEquivalent := by
  refine ⟨fun p hp => ?_, fun p q hp hq hsign => ?_, by decide, by decide⟩
  · rw [enc32_of_allOnes hp]
    exact ⟨congrArg (·, Cond.noEquivalent) (joinFields_single_allOnes _),
      ieeeClass_joinFields_allOnes .single (by decide) _, legacyValue_single_allOnes _⟩
  · rw [enc32_of_allOnes hp, enc32_of_allOnes hq, hsign]

end Sys2Proof.Machine
end

section
/-! The double width of an all-ones exponent (spec/42_double_width.md R128): the answer of either width, read with the
constants of `Format.double`. -/

namespace Sys2Proof.Machine

theorem joinFields_double_allOnes (s : BitVec 1) :
    joinFields .double s (BitVec.allOnes 11) 0
      = if s = 1 then 0xFFF0000000000000#64 else 0x7FF0000000000000#64 := by
  revert s
  decide

theorem enc64_of_allOnes {p : Word64} (he : (expOf .double p).toNat = 2047) :
    enc64 p = (joinFields .double (signOf .double p) (BitVec.allOnes 11) 0, .noEquivalent) :=
  enc_of_allOnes .double (by decide) (BitVec.eq_of_toNat_eq he)

theorem legacyValue_double_allOnes (s : BitVec 1) :
    legacyValue .double (joinFields .double s (BitVec.allOnes 11) 0) = some (signFactor s * 2 ^ 1022) :=
  legacyValue_joinFields_zero_mantissa .double s (by decide)

/-- Settles O26: the answer is `{s, ones, 0}`, in which the mantissa does not occur; the value and the numerals are those of
that word, and the examples are computed. -/
theorem encodeDoubleNoEquivalent : Obligations.EncodeDoubleNoEquivalent := by
  refine ⟨fun p hp => ?_, fun p q hp hq hsign => ?_, by decide, by decide⟩
  · rw [enc64_of_allOnes hp]
    exact ⟨congrArg (·, Cond.noEquivalent) (joinFields_double_allOnes _), legacyValue_double_allOnes _⟩
  · rw [enc64_of_allOnes hp, enc64_of_allOnes hq, hsign]

end Sys2Proof.Machine
end

section
/-! What the two widths have in common (spec/00_scope.md R5 to R7), as the claims about both widths use it. -/

namespace Sys2Proof.Format

/-- The constants are those of a converter pair whose legacy bias is one above the IEEE bias and whose exponents, of both
sides, fill the field: then `ADJ` is 2 and `LEXPMAX` the all-ones exponent. -/
structure Standard (f : Format) : Prop where
  three_le_expSize : 3 ≤ f.expSize
  two_le_mantSize : 2 ≤ f.mantSize
  legacyBias_eq : f.legacyBias = f.ieeeBias + 1
  two_mul_legacyBias : 2 * f.legacyBias = 2 ^ f.expSize

theorem single_standard : single.Standard := ⟨by decide, by decide, rfl, rfl⟩
theorem double_standard : double.Standard := ⟨by decide, by decide, rfl, rfl⟩

theorem standard_of_known {f : Format} (hf : f = .single ∨ f = .double) : f.Standard := by
  rcases hf with rfl | rfl
  · exact single_standard
  · exact double_standard

namespace Standard

variable {f : Format} (hf : f.Standard)
include hf

theorem adj_eq : f.adj = 2 := by
  rw [adj, hf.legacyBias_eq]
  omega

theorem lexpMax_eq : f.lexpMax = ((2 ^ f.expSize : Nat) : Int) - 1 := by
  rw [lexpMax, ← hf.two_mul_legacyBias]
  norm_cast

/-- The exponent field holds at least the eight exponents 0 to 7. -/
theorem eight_le_two_pow_expSize : 8 ≤ 2 ^ f.expSize :=
  Nat.pow_le_pow_right (n := 2) (by decide) hf.three_le_expSize

theorem four_mul_quarter : 4 * 2 ^ (f.mantSize - 2) = 2 ^ f.mantSize := by
  have h : f.mantSize = 2 + (f.mantSize - 2) := by have := hf.two_le_mantSize; omega
  conv_rhs => rw [h, Nat.pow_add]

theorem two_mul_half : 2 * 2 ^ (f.mantSize - 1) = 2 ^ f.mantSize :=
  mul_pow_sub_one (by have := hf.two_le_mantSize; omega) 2

theorem allOnes_ne_zero : BitVec.allOnes f.expSize ≠ 0 := by
  have h := hf.eight_le_two_pow_expSize
  intro h0
  have hnat : 2 ^ f.expSize - 1 = 0 := BitVec.toNat_allOnes.symm.trans (congrArg BitVec.toNat h0)
  omega

end Standard

end Sys2Proof.Format
end

section
/-! Everything the decode can do, said once for both widths: the four cases of spec/41_single_width.md R101 to R104 and
42_double_width.md R121 to R123, R131, by the fields of the result. -/

namespace Sys2Proof.Machine

/-- `Decoded f l w c`: pattern `w` and tag `c` are what R101 to R104 give for the logical word `l`. -/
inductive Decoded (f : Format) (l : f.Word) : f.Word → Cond → Prop
  | reserved (he : expOf f l = 0) (hs : signOf f l = 1) : Decoded f l 0 .reservedOperand
  | zero (he : expOf f l = 0) (hs : signOf f l ≠ 1) : Decoded f l 0 .ok
  | normal {w : f.Word} (he : 3 ≤ (expOf f l).toNat) (hsign : signOf f w = signOf f l)
      (hexp : (expOf f w).toNat + 2 = (expOf f l).toNat) (hmant : mantOf f w = mantOf f l) :
      Decoded f l w .ok
  | subnormal {w : f.Word} (he : (expOf f l).toNat = 1 ∨ (expOf f l).toNat = 2)
      (hsign : signOf f w = signOf f l) (hexp : expOf f w = 0)
      (hmant : (mantOf f w).toNat = (2 ^ f.mantSize + (mantOf f l).toNat) / 2 ^ (3 - (expOf f l).toNat)) :
      Decoded f l w .ok

variable {f : Format}

theorem toNat_of_eq_zero {n : Nat} {x : BitVec n} (h : x = 0) : x.toNat = 0 :=
  h ▸ BitVec.toNat_zero

theorem toNat_ne_zero_of_ne_zero {n : Nat} {x : BitVec n} (h : x ≠ 0) : x.toNat ≠ 0 :=
  fun h0 => h (BitVec.eq_of_toNat_eq (h0.trans BitVec.toNat_zero.symm))

/-- An exponent that fits the field is the number its field holds. -/
theorem expField_toNat {n : Nat} (h : n < 2 ^ f.expSize) : (expField f n).toNat = n := by
  rw [expField, BitVec.ofInt_natCast, BitVec.toNat_ofNat, Nat.mod_eq_of_lt h]

/-- The chopped mantissa fits the mantissa field, because at least the hidden bit's own position is shifted out. -/
theorem hidden_div_lt {M m k : Nat} (hm : m < M) (hk : 1 ≤ k) : (M + m) / 2 ^ k < M := by
  have hpow : M * 2 ^ 1 ≤ M * 2 ^ k := Nat.mul_le_mul_left M (Nat.pow_le_pow_right (by decide) hk)
  exact (Nat.div_lt_iff_lt_mul (Nat.two_pow_pos k)).mpr (by omega)

theorem dec_decoded (hf : f.Standard) (l : f.Word) : Decoded f l (dec f l).1 (dec f l).2 := by
  by_cases he : expOf f l = 0
  · by_cases hs : signOf f l = 1
    · rw [dec_of_reserved f he hs]
      exact .reserved he hs
    · rw [dec_of_zero f he hs]
      exact .zero he hs
  have he0 := toNat_ne_zero_of_ne_zero he
  have hadj := hf.adj_eq
  by_cases hpos : 0 < ((expOf f l).toNat : Int) - f.adj
  · rw [dec_of_normal f he hpos]
    refine .normal (by omega) (signOf_joinFields ..) ?_ (mantOf_joinFields ..)
    have hcast : ((expOf f l).toNat : Int) - f.adj = ((expOf f l).toNat - 2 : Nat) := by omega
    rw [expOf_joinFields, hcast, expField_toNat (by omega)]
    omega
  · rw [dec_of_subnormal f he hpos]
    refine .subnormal (by omega) (signOf_joinFields ..) (expOf_joinFields ..) ?_
    have hshift : (1 - (((expOf f l).toNat : Int) - f.adj)).toNat = 3 - (expOf f l).toNat := by omega
    have hlt := hidden_div_lt (mantOf f l).isLt (k := 3 - (expOf f l).toNat) (by omega)
    rw [mantOf_joinFields, hshift, BitVec.toNat_setWidth, BitVec.toNat_ushiftRight, withHidden_toNat,
      Nat.shiftRight_eq_div_pow, Nat.mod_eq_of_lt hlt]

end Sys2Proof.Machine
end

section
/-! Everything the encode can do, said once for both widths: the cases of spec/41_single_width.md R106 to R110 and
42_double_width.md R125 to R130, by the fields of the result. -/

namespace Sys2Proof.Machine

/-- `Encoded f p l c`: word `l` and tag `c` are what R106 to R110 give for the IEEE pattern `p`. -/
inductive Encoded (f : Format) (p : f.Word) : f.Word → Cond → Prop
  | special {l : f.Word} (he : (expOf f p).toNat = 2 ^ f.expSize - 1) (hsign : signOf f l = signOf f p)
      (hexp : (expOf f l).toNat = 2 ^ f.expSize - 1) (hmant : (mantOf f l).toNat = 0) :
      Encoded f p l .noEquivalent
  | overflow {l : f.Word} (he : (expOf f p).toNat = 2 ^ f.expSize - 2) (hsign : signOf f l = signOf f p)
      (hexp : (expOf f l).toNat = 2 ^ f.expSize - 1) (hmant : (mantOf f l).toNat = 2 ^ f.mantSize - 1) :
      Encoded f p l .overflow
  | normal {l : f.Word} (he : 1 ≤ (expOf f p).toNat) (he' : (expOf f p).toNat ≤ 2 ^ f.expSize - 3)
      (hsign : signOf f l = signOf f p) (hexp : (expOf f l).toNat = (expOf f p).toNat + 2)
      (hmant : mantOf f l = mantOf f p) : Encoded f p l .ok
  | subnormal {l : f.Word} (k : Nat) (hk : k = 1 ∨ k = 2) (he : expOf f p = 0)
      (hsign : signOf f l = signOf f p) (hexp : (expOf f l).toNat = 3 - k)
      (hmant : 2 ^ f.mantSize + (mantOf f l).toNat = (mantOf f p).toNat * 2 ^ k) : Encoded f p l .ok
  | underflow (he : expOf f p = 0) (hm : (mantOf f p).toNat < 2 ^ (f.mantSize - 2)) : Encoded f p 0 .ok

variable {f : Format}

/-- Re-normalising a subnormal takes `k` shifts, from 1 to `MW`, which bring its highest bit to the hidden position and lose
none, and counts the exponent down from 1 (R107, R126). -/
theorem renorm_spec {m : BitVec f.mantSize} (hm : m ≠ 0) :
    ∃ k : Nat, 1 ≤ k ∧ k ≤ f.mantSize ∧ 2 ^ f.mantSize ≤ m.toNat * 2 ^ k ∧
      m.toNat * 2 ^ k < 2 ^ (f.mantSize + 1) ∧
      renorm f m = (1 - (k : Int), BitVec.ofNat f.mantSize (m.toNat * 2 ^ k - 2 ^ f.mantSize)) := by
  have hm0 := toNat_ne_zero_of_ne_zero hm
  obtain ⟨k, hk, hlt, hle, hloop⟩ :=
    renormLoop_spec f.mantSize f.mantSize (m.setWidth (f.mantSize + 1)) 1
  rw [BitVec.toNat_setWidth_of_le (Nat.le_succ _)] at hlt hle hloop
  have hhidden : 2 ^ f.mantSize ≤ m.toNat * 2 ^ k := by
    rcases hk.lt_or_eq with h | rfl
    · exact hle h
    · exact Nat.le_mul_of_pos_left _ (by omega)
  have hk1 : 1 ≤ k := by
    rcases k with _ | k
    · have := m.isLt
      omega
    · omega
  refine ⟨k, hk1, hk, hhidden, hlt, ?_⟩
  rw [renorm, hloop]
  refine Prod.ext rfl (BitVec.eq_of_toNat_eq ?_)
  rw [BitVec.toNat_setWidth, BitVec.toNat_ofNat, Nat.mod_eq_of_lt hlt, BitVec.toNat_ofNat,
    Nat.mod_eq_sub_mod hhidden]

theorem toNat_eq_allOnes_iff {n : Nat} {x : BitVec n} : x = BitVec.allOnes n ↔ x.toNat = 2 ^ n - 1 :=
  ⟨fun h => h ▸ BitVec.toNat_allOnes, fun h => BitVec.eq_of_toNat_eq (h.trans BitVec.toNat_allOnes.symm)⟩

theorem enc_encoded_of_normal (hf : f.Standard) {p : f.Word} (he : expOf f p ≠ 0) :
    Encoded f p (enc f p).1 (enc f p).2 := by
  have he0 := toNat_ne_zero_of_ne_zero he
  have hzero : ¬ (expOf f p = 0 ∧ mantOf f p = 0) := fun h => he h.1
  by_cases hones : expOf f p = BitVec.allOnes f.expSize
  · rw [enc_of_special f hzero hones]
    refine .special (toNat_eq_allOnes_iff.mp hones) (signOf_joinFields ..) ?_ ?_
    · rw [expOf_joinFields, BitVec.toNat_allOnes]
    · rw [mantOf_joinFields]; rfl
  have hone := mt toNat_eq_allOnes_iff.mpr hones
  have hmax := hf.lexpMax_eq
  have hoperand := encodeOperand_of_normal f he
  have he2 : (encodeOperand f p).1 + f.adj = ((expOf f p).toNat + 2 : Nat) := by
    rw [hoperand, hf.adj_eq]; rfl
  have hpos : ¬ (encodeOperand f p).1 + f.adj ≤ 0 := by omega
  by_cases hover : f.lexpMax < (encodeOperand f p).1 + f.adj
  · rw [enc_of_overflow f hzero hones hpos hover]
    refine .overflow ?_ (signOf_joinFields ..) ?_ ?_
    · omega
    · rw [expOf_joinFields, BitVec.toNat_allOnes]
    · rw [mantOf_joinFields, BitVec.toNat_allOnes]
  · rw [enc_of_number f hzero hones hpos hover, he2, hoperand]
    have hle : (expOf f p).toNat ≤ 2 ^ f.expSize - 3 := by omega
    refine .normal (by omega) hle (signOf_joinFields ..) ?_ (mantOf_joinFields ..)
    rw [expOf_joinFields, expField_toNat (by omega)]

theorem enc_encoded_of_subnormal (hf : f.Standard) {p : f.Word} (he : expOf f p = 0) (hm : mantOf f p ≠ 0) :
    Encoded f p (enc f p).1 (enc f p).2 := by
  have hzero : ¬ (expOf f p = 0 ∧ mantOf f p = 0) := fun h => hm h.2
  have hones : expOf f p ≠ BitVec.allOnes f.expSize := he ▸ hf.allOnes_ne_zero.symm
  have hmax := hf.lexpMax_eq
  have hexpSize := hf.eight_le_two_pow_expSize
  have hquarter := hf.four_mul_quarter
  obtain ⟨k, hk1, -, hle, hlt, hrenorm⟩ := renorm_spec hm
  have hoperand := (encodeOperand_of_subnormal f he).trans hrenorm
  have he2 : (encodeOperand f p).1 + f.adj = 3 - k := by rw [hoperand, hf.adj_eq]; ring
  rcases Nat.lt_or_ge k 3 with hk | hk
  · have hcast : (3 - k : Int) = (3 - k : Nat) := by omega
    have hunder : ¬ (encodeOperand f p).1 + f.adj ≤ 0 := by omega
    have hover : ¬ f.lexpMax < (encodeOperand f p).1 + f.adj := by omega
    rw [enc_of_number f hzero hones hunder hover, he2, hoperand, hcast]
    refine .subnormal k (by omega) he (signOf_joinFields ..) ?_ ?_
    · rw [expOf_joinFields, expField_toNat (by omega)]
    · rw [mantOf_joinFields, BitVec.toNat_ofNat, Nat.mod_eq_of_lt (by omega)]
      omega
  · rw [enc_of_underflow f hzero hones (by omega)]
    refine .underflow he ?_
    have hthree : (mantOf f p).toNat * 2 ^ 3 ≤ (mantOf f p).toNat * 2 ^ k :=
      Nat.mul_le_mul_left _ (Nat.pow_le_pow_right (by decide) hk)
    omega

theorem enc_encoded (hf : f.Standard) (p : f.Word) : Encoded f p (enc f p).1 (enc f p).2 := by
  by_cases he : expOf f p = 0
  · by_cases hm : mantOf f p = 0
    · rw [enc_of_zero f he hm]
      refine .underflow he ?_
      rw [hm]
      exact Nat.two_pow_pos _
    · exact enc_encoded_of_subnormal hf he hm
  · exact enc_encoded_of_normal hf he

end Sys2Proof.Machine
end

section
/-! The closed integer forms of spec/41_single_width.md R103 to R110 and 42_double_width.md R126 to R131 (`closedDecode`,
`closedEncode`) are the two conversions, for every word of either width. -/

namespace Sys2Proof.Machine

variable {f : Format}

/-- A word as the sum of its three fields, each at its own weight. -/
theorem toNat_eq_sum (w : f.Word) :
    w.toNat = (signOf f w).toNat * 2 ^ (f.expSize + f.mantSize) + (expOf f w).toNat * 2 ^ f.mantSize
      + (mantOf f w).toNat := by
  rw [toNat_eq_fields f w, Nat.add_mul, Nat.mul_assoc, ← Nat.pow_add]

theorem closedDecode_eq_fields (l : f.Word) :
    closedDecode f.expSize f.mantSize l.toNat =
      if (expOf f l).toNat = 0 then (0, if (signOf f l).toNat = 1 then 0b01#2 else 0b00#2)
      else if 3 ≤ (expOf f l).toNat then (l.toNat - 2 * 2 ^ f.mantSize, 0b00#2)
      else ((signOf f l).toNat * 2 ^ (f.expSize + f.mantSize)
        + (2 ^ f.mantSize + (mantOf f l).toNat) / 2 ^ (3 - (expOf f l).toNat), 0b00#2) := by
  simp only [closedDecode, signOf_toNat, expOf_toNat, mantOf_toNat]

theorem closedDecode_eq_dec (hf : f.Standard) (l : f.Word) :
    closedDecode f.expSize f.mantSize l.toNat = ((dec f l).1.toNat, (dec f l).2.code) := by
  rw [closedDecode_eq_fields]
  have h := dec_decoded hf l
  generalize (dec f l).1 = w, (dec f l).2 = c at h ⊢
  cases h with
  | reserved he hs => simp [he, hs, Cond.code]
  | zero he hs =>
    have hs' : (signOf f l).toNat ≠ 1 := fun h => hs (BitVec.eq_of_toNat_eq h)
    simp [he, hs', Cond.code]
  | normal he hsign hexp hmant =>
    have hl := toNat_eq_sum l
    rw [if_neg (by omega), if_pos he, toNat_eq_sum w, hsign, hmant]
    rw [← hexp, Nat.add_mul] at hl
    exact Prod.ext (by omega) rfl
  | subnormal he hsign hexp hmant =>
    have hexp' : (expOf f w).toNat = 0 := toNat_of_eq_zero hexp
    rw [if_neg (by omega), if_neg (by omega), toNat_eq_sum w, hsign, hexp', hmant, Nat.zero_mul, Nat.add_zero]
    rfl

theorem closedEncode_eq_fields (p : f.Word) :
    closedEncode f.expSize f.mantSize p.toNat =
      if (expOf f p).toNat = 2 ^ f.expSize - 1 then
        ((signOf f p).toNat * 2 ^ (f.expSize + f.mantSize) + (2 ^ f.expSize - 1) * 2 ^ f.mantSize, 0b10#2)
      else if (expOf f p).toNat = 2 ^ f.expSize - 2 then
        ((signOf f p).toNat * 2 ^ (f.expSize + f.mantSize) + (2 ^ (f.expSize + f.mantSize) - 1), 0b11#2)
      else if 1 ≤ (expOf f p).toNat then (p.toNat + 2 * 2 ^ f.mantSize, 0b00#2)
      else if 2 ^ (f.mantSize - 1) ≤ (mantOf f p).toNat then
        ((signOf f p).toNat * 2 ^ (f.expSize + f.mantSize) + 2 * 2 ^ f.mantSize
          + (2 * (mantOf f p).toNat - 2 ^ f.mantSize), 0b00#2)
      else if 2 ^ (f.mantSize - 2) ≤ (mantOf f p).toNat then
        ((signOf f p).toNat * 2 ^ (f.expSize + f.mantSize) + 2 ^ f.mantSize
          + (4 * (mantOf f p).toNat - 2 ^ f.mantSize), 0b00#2)
      else (0, 0b00#2) := by
  simp only [closedEncode, signOf_toNat, expOf_toNat, mantOf_toNat]

/-- An all-ones exponent above an all-ones mantissa is the largest magnitude. -/
theorem allOnes_mul_add_allOnes (a b : Nat) : (2 ^ a - 1) * 2 ^ b + (2 ^ b - 1) = 2 ^ (a + b) - 1 := by
  have hb := Nat.two_pow_pos b
  have hab : 2 ^ b ≤ 2 ^ a * 2 ^ b := Nat.le_mul_of_pos_left _ (Nat.two_pow_pos a)
  rw [Nat.sub_mul, Nat.pow_add]
  omega

theorem closedEncode_eq_enc (hf : f.Standard) (p : f.Word) :
    closedEncode f.expSize f.mantSize p.toNat = ((enc f p).1.toNat, (enc f p).2.code) := by
  rw [closedEncode_eq_fields]
  have h := enc_encoded hf p
  have hexpSize := hf.eight_le_two_pow_expSize
  have hquarter := hf.four_mul_quarter
  have hhalf := hf.two_mul_half
  generalize (enc f p).1 = l, (enc f p).2 = c at h ⊢
  cases h with
  | special he hsign hexp hmant =>
    rw [if_pos he, toNat_eq_sum l, hsign, hexp, hmant]
    rfl
  | overflow he hsign hexp hmant =>
    rw [if_neg (by omega), if_pos he, toNat_eq_sum l, hsign, hexp, hmant, Nat.add_assoc,
      allOnes_mul_add_allOnes]
    rfl
  | normal he he' hsign hexp hmant =>
    have hp := toNat_eq_sum p
    rw [if_neg (by omega), if_neg (by omega), if_pos he, toNat_eq_sum l, hsign, hexp, hmant, Nat.add_mul]
    exact Prod.ext (by omega) rfl
  | subnormal k hk he hsign hexp hmant =>
    have he0 : (expOf f p).toNat = 0 := toNat_of_eq_zero he
    rw [if_neg (by omega), if_neg (by omega), if_neg (by omega), toNat_eq_sum l, hsign, hexp]
    rcases hk with rfl | rfl
    · rw [if_pos (by omega)]
      exact Prod.ext (by omega) rfl
    · rw [if_neg (by omega), if_pos (by omega)]
      exact Prod.ext (by omega) rfl
  | underflow he hm =>
    have he0 : (expOf f p).toNat = 0 := toNat_of_eq_zero he
    rw [if_neg (by omega), if_neg (by omega), if_neg (by omega), if_neg (by omega), if_neg (by omega)]
    rfl

end Sys2Proof.Machine
end

section
/-! The encoder and the decoder of a presented pair (spec/30_encoding.md R61, 10_state.md R29), and what the ports read for
each operation. -/

namespace Sys2Proof

/-- The select has four codes and all are assigned (R60). -/
theorem op_cases (op : BitVec 2) : op = 0b00#2 ∨ op = 0b01#2 ∨ op = 0b10#2 ∨ op = 0b11#2 := by
  revert op
  decide

theorem be64Inv_be64 (u : DoubleUnit) : be64Inv (be64 u) = u := by
  have hupper : (be64 u).extractLsb' 32 32 = be32 u.first := BitVec.extractLsb'_append_eq_left
  have hlower : (be64 u).extractLsb' 0 32 = be32 u.last := BitVec.extractLsb'_append_eq_right
  rw [be64Inv, hupper, hlower, be32Inv_be32, be32Inv_be32, DoubleUnit.ofRuns_first_last]

/-- A single-width word on a port stands in the lower half; the upper half is clear. -/
theorem setWidth_halves (x : Word32) :
    (x.setWidth 64).extractLsb' 0 32 = x ∧ (x.setWidth 64).extractLsb' 32 32 = 0 := by
  have happend : x.setWidth 64 = 0#32 ++ x := BitVec.setWidth_eq_append (by decide)
  rw [happend]
  exact ⟨BitVec.extractLsb'_append_eq_right, BitVec.extractLsb'_append_eq_left⟩

/-- Settles O1: by operation, each operand comes back from the port half or the whole port that carries it. -/
theorem decodeEncodeRoundTrip : Obligations.DecodeEncodeRoundTrip := by
  intro i
  cases i with
  | decodeSingle u =>
    calc decode (encode (.decodeSingle u))
        = .decodeSingle (be32Inv (((be32 u).setWidth 64).extractLsb' 0 32)) := rfl
      _ = .decodeSingle u := by rw [(setWidth_halves _).1, be32Inv_be32]
  | decodeDouble u => exact congrArg Instr.decodeDouble (be64Inv_be64 u)
  | encodeSingle p => exact congrArg Instr.encodeSingle (setWidth_halves p).1
  | encodeDouble p => rfl

end Sys2Proof
end

section
/-! The block as a function of its ports (spec/10_state.md R20, 40_layout_utility.md R95): what each instruction delivers, in
the closed integer forms. -/

namespace Sys2Proof.Machine

theorem be32_pack32 (l : Word32) : be32 (pack32 l) = swap16 l := be32_be32Inv _

/-- The halves of the port value of `PACK64` (R95). -/
theorem be64_pack64_eq_append (l : Word64) :
    be64 (pack64 l) = swap16 (l.extractLsb' 0 32) ++ swap16 (l.extractLsb' 32 32) := by
  rw [pack64, be64, DoubleUnit.first_ofRuns, DoubleUnit.last_ofRuns, be32_pack32, be32_pack32]

theorem be64_pack64 (l : Word64) : be64 (pack64 l) = reverse16x4 l := by
  have hl : l.extractLsb' 32 32 ++ l.extractLsb' 0 32 = l := BitVec.extractLsb'_append_extractLsb'
  rw [be64_pack64_eq_append, ← reverse16x4_append, hl]

theorem closedDecode_single (l : Word32) :
    closedDecode 8 23 l.toNat = ((dec32 l).1.toNat, (dec32 l).2.code) :=
  closedDecode_eq_dec Format.single_standard l

theorem closedDecode_double (l : Word64) :
    closedDecode 11 52 l.toNat = ((dec64 l).1.toNat, (dec64 l).2.code) :=
  closedDecode_eq_dec Format.double_standard l

theorem closedEncode_single (p : Word32) :
    closedEncode 8 23 p.toNat = ((enc32 p).1.toNat, (enc32 p).2.code) :=
  closedEncode_eq_enc Format.single_standard p

theorem closedEncode_double (p : Word64) :
    closedEncode 11 52 p.toNat = ((enc64 p).1.toNat, (enc64 p).2.code) :=
  closedEncode_eq_enc Format.double_standard p

/-- The outputs an instruction leaves, value and code. -/
def outputs (i : Instr) : Result := ⟨(delivered i).1, (delivered i).2.code⟩

theorem outputs_decodeSingle (u : SingleUnit) :
    outputs (.decodeSingle u) = ⟨BitVec.ofNat 64 (closedDecode 8 23 (unpack32 u).toNat).1,
      (closedDecode 8 23 (unpack32 u).toNat).2⟩ := by
  rw [closedDecode_single, BitVec.ofNat_toNat]
  rfl

theorem outputs_decodeDouble (u : DoubleUnit) :
    outputs (.decodeDouble u) = ⟨BitVec.ofNat 64 (closedDecode 11 52 (unpack64 u).toNat).1,
      (closedDecode 11 52 (unpack64 u).toNat).2⟩ := by
  rw [closedDecode_double, BitVec.ofNat_toNat, BitVec.setWidth_eq]
  rfl

theorem outputs_encodeSingle (p : Word32) :
    outputs (.encodeSingle p) = ⟨(reverse16x2 (BitVec.ofNat 32 (closedEncode 8 23 p.toNat).1)).setWidth 64,
      (closedEncode 8 23 p.toNat).2⟩ := by
  rw [closedEncode_single, BitVec.ofNat_toNat, BitVec.setWidth_eq, outputs, delivered, be32_pack32]
  rfl

theorem outputs_encodeDouble (p : Word64) :
    outputs (.encodeDouble p) = ⟨reverse16x4 (BitVec.ofNat 64 (closedEncode 11 52 p.toNat).1),
      (closedEncode 11 52 p.toNat).2⟩ := by
  rw [closedEncode_double, BitVec.ofNat_toNat, BitVec.setWidth_eq, outputs, delivered, be64_pack64]

theorem unpack32_be32Inv (s : Word32) : unpack32 (be32Inv s) = reverse16x2 s := by
  rw [unpack32, be32_be32Inv]
  rfl

theorem unpack64_be64Inv (s : Word64) : unpack64 (be64Inv s) = reverse16x4 s := by
  rw [unpack64_eq_reverse16x4, be64_be64Inv]

theorem outputs_decode (p : Presentation) : outputs (decode p) = portFunction p := by
  obtain ⟨op, a⟩ := p
  rcases op_cases op with rfl | rfl | rfl | rfl
  · exact (outputs_decodeSingle _).trans (by rw [unpack32_be32Inv]; rfl)
  · exact (outputs_decodeDouble _).trans (by rw [unpack64_be64Inv]; rfl)
  · exact outputs_encodeSingle _
  · exact outputs_encodeDouble _

/-- Settles O41: a step drives the outputs of the decoded instruction, which are the port function's. -/
theorem stepIsThePortFunction : Obligations.StepIsThePortFunction :=
  fun s => ⟨_, step_eq_drive s, rfl, rfl, outputs_decode s.presented⟩

/-- Settles O44: the state before the step need not be settled, since a step leaves the port function's outputs. -/
theorem stepKeepsSettled : Obligations.StepKeepsSettled := by
  intro s t _ hstep
  rw [step_eq_drive] at hstep
  cases hstep
  exact outputs_decode s.presented

end Sys2Proof.Machine
end

section
/-! Every pattern and tag a step leaves is one the presented operation can give (spec/30_encoding.md R73, 60_exceptions.md R141
to R144). -/

namespace Sys2Proof.Machine

variable {f : Format}

theorem decodeImage_dec (hf : f.Standard) (l : f.Word) : DecodeImage f (dec f l).1 := by
  have h := dec_decoded hf l
  have hquarter := hf.four_mul_quarter
  generalize (dec f l).1 = w, (dec f l).2 = c at h ⊢
  cases h with
  | reserved | zero => exact .inl rfl
  | normal he hsign hexp hmant =>
    exact .inr (.inr (by omega))
  | subnormal he hsign hexp hmant =>
    refine .inr (.inl ⟨hexp, ?_⟩)
    rcases he with he | he <;> · rw [he] at hmant; omega

theorem dec_tag (hf : f.Standard) (l : f.Word) :
    (dec f l).2 = .ok ∨ (dec f l).2 = .reservedOperand ∧ (dec f l).1 = 0 := by
  have h := dec_decoded hf l
  generalize (dec f l).1 = w, (dec f l).2 = c at h ⊢
  cases h with
  | reserved => exact .inr ⟨rfl, rfl⟩
  | zero | normal | subnormal => exact .inl rfl

/-- `Classified f l c`: the fields of `l` are those of class `c` in the table of R67. -/
inductive Classified (f : Format) (l : f.Word) : LegacyClass → Prop
  | trueZero (he : expOf f l = 0) (hs : signOf f l ≠ 1) (hm : mantOf f l = 0) : Classified f l .trueZero
  | dirtyZero (he : expOf f l = 0) (hs : signOf f l ≠ 1) (hm : mantOf f l ≠ 0) : Classified f l .dirtyZero
  | reservedOperand (he : expOf f l = 0) (hs : signOf f l = 1) : Classified f l .reservedOperand
  | number (he : expOf f l ≠ 0) : Classified f l .number

theorem legacyClass_classified (l : f.Word) : Classified f l (legacyClass f l) := by
  unfold legacyClass
  split_ifs with he hs hm
  · exact .reservedOperand he hs
  · exact .trueZero he hs hm
  · exact .dirtyZero he hs hm
  · exact .number he

/-- A non-zero exponent makes a legacy word a number (R67). -/
theorem legacyClass_of_exp_ne_zero {l : f.Word} (he : (expOf f l).toNat ≠ 0) : legacyClass f l = .number :=
  if_neg (mt toNat_of_eq_zero he)

theorem signOf_zero : signOf f 0 = 0 := BitVec.eq_of_toNat_eq (by rw [signOf_toNat]; exact Nat.zero_div _)
theorem expOf_zero : expOf f 0 = 0 :=
  BitVec.eq_of_toNat_eq (by rw [expOf_toNat]; exact (congrArg (· % _) (Nat.zero_div _)).trans (Nat.zero_mod _))
theorem mantOf_zero : mantOf f 0 = 0 := BitVec.eq_of_toNat_eq (by rw [mantOf_toNat]; exact Nat.zero_mod _)

theorem legacyClass_zero : legacyClass f 0 = .trueZero := by
  have hs : signOf f 0 ≠ 1 := by rw [signOf_zero]; decide
  rw [legacyClass, if_pos expOf_zero, if_neg hs, if_pos mantOf_zero]

/-- An encode never gives a dirty zero or a reserved operand (R73). -/
theorem legacyClass_enc (hf : f.Standard) (p : f.Word) :
    legacyClass f (enc f p).1 = .trueZero ∨ legacyClass f (enc f p).1 = .number := by
  have h := enc_encoded hf p
  have hexpSize := hf.eight_le_two_pow_expSize
  generalize (enc f p).1 = l, (enc f p).2 = c at h ⊢
  cases h with
  | underflow => exact .inl legacyClass_zero
  | special | overflow | normal | subnormal => exact .inr (legacyClass_of_exp_ne_zero (by omega))

/-- The tags of an encode, a failure tag with the saturation word of the pattern's sign (R109, R110, R128, R130). -/
theorem enc_tag (hf : f.Standard) (p : f.Word) :
    (enc f p).2 = .ok ∨
    (enc f p).2 = .noEquivalent ∧ (enc f p).1 = joinFields f (signOf f p) (BitVec.allOnes f.expSize) 0 ∨
    (enc f p).2 = .overflow ∧
      (enc f p).1 = joinFields f (signOf f p) (BitVec.allOnes f.expSize) (BitVec.allOnes f.mantSize) := by
  have h := enc_encoded hf p
  generalize (enc f p).1 = l, (enc f p).2 = c at h ⊢
  cases h with
  | normal | subnormal | underflow => exact .inl rfl
  | special he hsign hexp hmant =>
    refine .inr (.inl ⟨rfl, ?_⟩)
    rw [← hsign, ← toNat_eq_allOnes_iff.mpr hexp, ← (BitVec.eq_of_toNat_eq hmant : mantOf f l = 0),
      joinFields_fields]
  | overflow he hsign hexp hmant =>
    refine .inr (.inr ⟨rfl, ?_⟩)
    rw [← hsign, ← toNat_eq_allOnes_iff.mpr hexp, ← toNat_eq_allOnes_iff.mpr hmant, joinFields_fields]

@[simp] theorem reverse16x2_swap16 (l : Word32) : reverse16x2 (swap16 l) = l := swap16_swap16 l

@[simp] theorem reverse16x4_reverse16x4 (l : Word64) : reverse16x4 (reverse16x4 l) = l := by
  rw [← be64_pack64 l, ← unpack64_eq_reverse16x4, unpack64_pack64]

/-- The packed saturation words of the single width, as the port shows them. -/
theorem saturation_single (s : BitVec 1) :
    ((swap16 (joinFields .single s (BitVec.allOnes 8) 0)).setWidth 64 = 0x00007F80#64 ∨
      (swap16 (joinFields .single s (BitVec.allOnes 8) 0)).setWidth 64 = 0x0000FF80#64) ∧
    ((swap16 (joinFields .single s (BitVec.allOnes 8) (BitVec.allOnes 23))).setWidth 64 = 0xFFFF7FFF#64 ∨
      (swap16 (joinFields .single s (BitVec.allOnes 8) (BitVec.allOnes 23))).setWidth 64 = 0xFFFFFFFF#64) := by
  revert s
  decide

/-- The packed saturation words of the double width, as the port shows them. -/
theorem saturation_double (s : BitVec 1) :
    (reverse16x4 (joinFields .double s (BitVec.allOnes 11) 0) = 0x0000000000007FF0#64 ∨
      reverse16x4 (joinFields .double s (BitVec.allOnes 11) 0) = 0x000000000000FFF0#64) ∧
    (reverse16x4 (joinFields .double s (BitVec.allOnes 11) (BitVec.allOnes 52)) = 0xFFFFFFFFFFFF7FFF#64 ∨
      reverse16x4 (joinFields .double s (BitVec.allOnes 11) (BitVec.allOnes 52)) = 0xFFFFFFFFFFFFFFFF#64) := by
  revert s
  decide

theorem outputsLegal_decodeSingle {s : State} {l : Word32} (hop : s.op = 0b00#2)
    (hy : s.y = (dec32 l).1.setWidth 64) (hcond : s.cond = (dec32 l).2.code) : s.OutputsLegal := by
  obtain ⟨hlower, hupper⟩ := setWidth_halves (dec32 l).1
  rw [State.OutputsLegal, hop, hy, hcond]
  show _ ∧ _ ∧ _
  rw [hlower, hupper]
  refine ⟨rfl, decodeImage_dec Format.single_standard l, ?_⟩
  rcases dec_tag Format.single_standard l with htag | ⟨htag, hzero⟩
  · exact .inl (congrArg Cond.code htag)
  · exact .inr ⟨congrArg Cond.code htag, congrArg (BitVec.setWidth 64) hzero⟩

theorem outputsLegal_decodeDouble {s : State} {l : Word64} (hop : s.op = 0b01#2)
    (hy : s.y = (dec64 l).1) (hcond : s.cond = (dec64 l).2.code) : s.OutputsLegal := by
  rw [State.OutputsLegal, hop, hy, hcond]
  refine (⟨decodeImage_dec Format.double_standard l, ?_⟩ : _ ∧ _)
  rcases dec_tag Format.double_standard l with htag | ⟨htag, hzero⟩
  · exact .inl (congrArg Cond.code htag)
  · exact .inr ⟨congrArg Cond.code htag, hzero⟩

theorem outputsLegal_encodeSingle {s : State} {p : Word32} (hop : s.op = 0b10#2)
    (hy : s.y = (swap16 (enc32 p).1).setWidth 64) (hcond : s.cond = (enc32 p).2.code) : s.OutputsLegal := by
  obtain ⟨hlower, hupper⟩ := setWidth_halves (swap16 (enc32 p).1)
  rw [State.OutputsLegal, hop, hy, hcond]
  show _ ∧ _ ∧ _
  rw [hlower, hupper, reverse16x2_swap16]
  refine ⟨rfl, legacyClass_enc Format.single_standard p, ?_⟩
  obtain ⟨hspecial, hoverflow⟩ := saturation_single (signOf .single p)
  rcases enc_tag Format.single_standard p with htag | ⟨htag, hword⟩ | ⟨htag, hword⟩
  · exact .inl (congrArg Cond.code htag)
  · exact .inr (.inl ⟨congrArg Cond.code htag, hword ▸ hspecial⟩)
  · exact .inr (.inr ⟨congrArg Cond.code htag, hword ▸ hoverflow⟩)

theorem outputsLegal_encodeDouble {s : State} {p : Word64} (hop : s.op = 0b11#2)
    (hy : s.y = reverse16x4 (enc64 p).1) (hcond : s.cond = (enc64 p).2.code) : s.OutputsLegal := by
  rw [State.OutputsLegal, hop, hy, hcond]
  show _ ∧ _
  rw [reverse16x4_reverse16x4]
  refine ⟨legacyClass_enc Format.double_standard p, ?_⟩
  obtain ⟨hspecial, hoverflow⟩ := saturation_double (signOf .double p)
  rcases enc_tag Format.double_standard p with htag | ⟨htag, hword⟩ | ⟨htag, hword⟩
  · exact .inl (congrArg Cond.code htag)
  · exact .inr (.inl ⟨congrArg Cond.code htag, hword ▸ hspecial⟩)
  · exact .inr (.inr ⟨congrArg Cond.code htag, hword ▸ hoverflow⟩)

/-- Settles O45: a step's outputs are legal from every state, by the operation on the select. -/
theorem stepKeepsOutputsLegal : Obligations.StepKeepsOutputsLegal := by
  intro s t _ hstep
  rw [step_eq_drive] at hstep
  cases hstep
  obtain ⟨op, a, y, cond⟩ := s
  rcases op_cases op with rfl | rfl | rfl | rfl
  · exact outputsLegal_decodeSingle rfl rfl rfl
  · exact outputsLegal_decodeDouble rfl rfl rfl
  · exact outputsLegal_encodeSingle rfl (congrArg (BitVec.setWidth 64) (be32_pack32 _)) rfl
  · exact outputsLegal_encodeDouble rfl (be64_pack64 _) rfl

end Sys2Proof.Machine
end

section
/-! The decode of what an encode delivers (spec/41_single_width.md R111 (a), 42_double_width.md R132 (a)): on the patterns the
legacy format can represent the encode loses nothing, and the decode undoes it. -/

namespace Sys2Proof.Machine

variable {f : Format}

/-- The magnitude bits of a pattern are its exponent and its mantissa. -/
theorem toNat_mod_eq_sum (w : f.Word) :
    w.toNat % 2 ^ (f.expSize + f.mantSize) = (expOf f w).toNat * 2 ^ f.mantSize + (mantOf f w).toNat := by
  have hlt : (expOf f w).toNat * 2 ^ f.mantSize + (mantOf f w).toNat < 2 ^ (f.expSize + f.mantSize) := by
    calc (expOf f w).toNat * 2 ^ f.mantSize + (mantOf f w).toNat
        < ((expOf f w).toNat + 1) * 2 ^ f.mantSize := by rw [Nat.add_mul]; omega
      _ ≤ 2 ^ f.expSize * 2 ^ f.mantSize := Nat.mul_le_mul_right _ (expOf f w).isLt
      _ = 2 ^ (f.expSize + f.mantSize) := (Nat.pow_add ..).symm
  rw [toNat_eq_sum w, Nat.add_assoc, Nat.mul_add_mod', Nat.mod_eq_of_lt hlt]

/-- An IEEE pattern with a legacy word of its value: not below the smallest legacy magnitude (R108, R127), and below the top
binade (R110, R130). -/
def Representable (f : Format) (p : f.Word) : Prop :=
  (expOf f p = 0 → 2 ^ (f.mantSize - 2) ≤ (mantOf f p).toNat) ∧ (expOf f p).toNat ≤ 2 ^ f.expSize - 3

theorem representable_single {p : Word32} (hlow : 0x00200000 ≤ p.toNat % 2 ^ 31)
    (hhigh : p.toNat % 2 ^ 31 ≤ 0x7EFFFFFF) : Representable .single p := by
  have hsum : p.toNat % 2 ^ 31 = (expOf .single p).toNat * 2 ^ 23 + (mantOf .single p).toNat :=
    toNat_mod_eq_sum (f := .single) p
  refine ⟨fun he => ?_, ?_⟩
  · rw [he, BitVec.ofNat_eq_ofNat, BitVec.toNat_zero] at hsum
    show 2 ^ 21 ≤ _
    omega
  · show _ ≤ 253
    omega

theorem representable_double {p : Word64} (hlow : 0x0004000000000000 ≤ p.toNat % 2 ^ 63)
    (hhigh : p.toNat % 2 ^ 63 ≤ 0x7FDFFFFFFFFFFFFF) : Representable .double p := by
  have hsum : p.toNat % 2 ^ 63 = (expOf .double p).toNat * 2 ^ 52 + (mantOf .double p).toNat :=
    toNat_mod_eq_sum (f := .double) p
  refine ⟨fun he => ?_, ?_⟩
  · rw [he, BitVec.ofNat_eq_ofNat, BitVec.toNat_zero] at hsum
    show 2 ^ 50 ≤ _
    omega
  · show _ ≤ 2045
    omega

theorem dec_eq_of_normal_fields (hf : f.Standard) {l w : f.Word} (he : 3 ≤ (expOf f l).toNat)
    (hsign : signOf f l = signOf f w) (hexp : (expOf f l).toNat = (expOf f w).toNat + 2)
    (hmant : mantOf f l = mantOf f w) : dec f l = (w, .ok) := by
  have h := dec_decoded hf l
  refine Prod.ext_iff.mpr (?_ : (dec f l).1 = w ∧ (dec f l).2 = .ok)
  generalize (dec f l).1 = x, (dec f l).2 = c at h ⊢
  cases h with
  | reserved he' | zero he' => rw [he'] at he; exact absurd he (by simp)
  | subnormal he' => omega
  | normal _ hsign' hexp' hmant' =>
    exact ⟨eq_of_fields f (hsign'.trans hsign) (BitVec.eq_of_toNat_eq (by omega)) (hmant'.trans hmant), rfl⟩

theorem dec_eq_of_subnormal_fields (hf : f.Standard) {l w : f.Word}
    (he : (expOf f l).toNat = 1 ∨ (expOf f l).toNat = 2) (hsign : signOf f l = signOf f w)
    (hexp : expOf f w = 0)
    (hmant : (2 ^ f.mantSize + (mantOf f l).toNat) / 2 ^ (3 - (expOf f l).toNat) = (mantOf f w).toNat) :
    dec f l = (w, .ok) := by
  have h := dec_decoded hf l
  refine Prod.ext_iff.mpr (?_ : (dec f l).1 = w ∧ (dec f l).2 = .ok)
  generalize (dec f l).1 = x, (dec f l).2 = c at h ⊢
  cases h with
  | reserved he' | zero he' => rw [he'] at he; exact absurd he (by simp)
  | normal he' => omega
  | subnormal _ hsign' hexp' hmant' =>
    exact ⟨eq_of_fields f (hsign'.trans hsign) (hexp'.trans hexp.symm)
      (BitVec.eq_of_toNat_eq (hmant'.trans hmant)), rfl⟩

/-- Each case of the encode of a representable pattern is undone by the decode's case of the word it gave. -/
theorem dec_enc_of_representable (hf : f.Standard) {p : f.Word} (hp : Representable f p) :
    (enc f p).2 = .ok ∧ dec f (enc f p).1 = (p, .ok) := by
  obtain ⟨hlow, hhigh⟩ := hp
  have h := enc_encoded hf p
  have hexpSize := hf.eight_le_two_pow_expSize
  generalize (enc f p).1 = l, (enc f p).2 = c at h ⊢
  cases h with
  | special he => omega
  | overflow he => omega
  | underflow he hm => have := hlow he; omega
  | normal he _ hsign hexp hmant =>
    exact ⟨rfl, dec_eq_of_normal_fields hf (by omega) hsign hexp hmant⟩
  | subnormal k hk he hsign hexp hmant =>
    have hshift : 3 - (expOf f l).toNat = k := by omega
    refine ⟨rfl, dec_eq_of_subnormal_fields hf (by omega) hsign he ?_⟩
    rw [hshift, hmant, Nat.mul_div_cancel _ (Nat.two_pow_pos k)]

/-- Presenting an encoded instruction and evaluating it delivers what that instruction delivers. -/
theorem evaluate_encode (i : Instr) (s : State) :
    evaluate (encode i) s = .next ((s.present (encode i)).drive (delivered i).1 (delivered i).2) := by
  rw [evaluate_eq_drive, decodeEncodeRoundTrip i]

/-- What `encodeSingle` drives is the operand of `decodeSingle` for the unit it packed. -/
theorem delivered_encodeSingle (p : Word32) :
    encode (.decodeSingle (pack32 (enc32 p).1)) = ⟨0b00#2, (delivered (.encodeSingle p)).1⟩ := rfl

/-- What `encodeDouble` drives is the operand of `decodeDouble` for the unit it packed. -/
theorem delivered_encodeDouble (p : Word64) :
    encode (.decodeDouble (pack64 (enc64 p).1)) = ⟨0b01#2, (delivered (.encodeDouble p)).1⟩ := rfl

/-- Settles O30: the value on the output port is the encoding of `decodeSingle` of the packed unit, which unpacks to the
word that decodes to the pattern. -/
theorem ieeeSingleRoundTrip : Obligations.IeeeSingleRoundTrip := by
  intro p s hlow hhigh
  obtain ⟨hok, hdec⟩ := dec_enc_of_representable Format.single_standard (representable_single hlow hhigh)
  have hback : delivered (.decodeSingle (pack32 (enc32 p).1)) = (p.setWidth 64, .ok) := by
    rw [delivered, unpack32_pack32, show dec32 (enc32 p).1 = (p, .ok) from hdec]
  refine ⟨_, _, evaluate_encode (.encodeSingle p) s, congrArg Cond.code hok,
    evaluate_encode (.decodeSingle (pack32 (enc32 p).1)) _, ?_, ?_⟩
  · exact congrArg (Cond.code ∘ Prod.snd) hback
  · exact congrArg Prod.fst hback

/-- Settles O31: the output port, read as an operand, is the encoding of `decodeDouble` of the packed unit, which unpacks to
the word that decodes to the pattern. -/
theorem ieeeDoubleRoundTrip : Obligations.IeeeDoubleRoundTrip := by
  intro p s hlow hhigh
  obtain ⟨hok, hdec⟩ := dec_enc_of_representable Format.double_standard (representable_double hlow hhigh)
  have hback : delivered (.decodeDouble (pack64 (enc64 p).1)) = (p, .ok) := by
    rw [delivered, unpack64_pack64]
    exact hdec
  refine ⟨_, _, evaluate_encode (.encodeDouble p) s, congrArg Cond.code hok,
    evaluate_encode (.decodeDouble (pack64 (enc64 p).1)) _, ?_, ?_⟩
  · exact congrArg (Cond.code ∘ Prod.snd) hback
  · exact congrArg Prod.fst hback

end Sys2Proof.Machine
end

section
/-! What each operation delivers, from every state, by the closed integer forms, and that nothing else changes
(spec/41_single_width.md, 42_double_width.md). -/

namespace Sys2Proof.Machine

/-- `exec` leaves the state with its two outputs replaced by those of the instruction. -/
theorem exec_eq_outputs (i : Instr) (s : State) :
    exec i s = .next { s with y := (outputs i).y, cond := (outputs i).cond } :=
  exec_eq_drive i s

/-- Both halves of a four-byte unit are kept whole and exchanged. -/
theorem unpack32_eq_append (u : SingleUnit) : unpack32 u = u.b2 ++ u.b3 ++ u.b0 ++ u.b1 := by
  obtain ⟨h3, h2, h1, h0⟩ := unpack32_bytes u
  have hbytes : be32 (be32Inv (unpack32 u)) = unpack32 u := be32_be32Inv _
  rw [← hbytes, be32Inv, h3, h2, h1, h0]
  rfl

/-- Appending a run of bytes is appending all but the last and then the last. -/
theorem append_append_byte {n : Nat} (x : BitVec 32) (y : BitVec n) (z : Byte) : x ++ (y ++ z) = x ++ y ++ z := by
  rw [BitVec.append_assoc]
  rfl

theorem unpack64_eq_append (u : DoubleUnit) :
    unpack64 u = u.b6 ++ u.b7 ++ u.b4 ++ u.b5 ++ u.b2 ++ u.b3 ++ u.b0 ++ u.b1 := by
  rw [unpack64, unpack32_eq_append, unpack32_eq_append]
  have append2 := append_append_byte (u.b6 ++ u.b7 ++ u.b4 ++ u.b5) u.b2 u.b3
  have append3 := append_append_byte (u.b6 ++ u.b7 ++ u.b4 ++ u.b5) (u.b2 ++ u.b3) u.b0
  have append4 := append_append_byte (u.b6 ++ u.b7 ++ u.b4 ++ u.b5) (u.b2 ++ u.b3 ++ u.b0) u.b1
  exact append4.trans (congrArg (· ++ u.b1) (append3.trans (congrArg (· ++ u.b0) append2)))

/-- Settles O11: the outputs are the closed form of the unpacked word, whose bytes are written out. -/
theorem decodeSingleResult : Obligations.DecodeSingleResult := by
  intro u s
  rw [exec_eq_outputs, outputs_decodeSingle, unpack32_eq_append]

/-- Settles O16: the outputs are the closed form of the unpacked word, whose bytes are written out. -/
theorem decodeDoubleResult : Obligations.DecodeDoubleResult := by
  intro u s
  rw [exec_eq_outputs, outputs_decodeDouble, unpack64_eq_append]

/-- Settles O20: the outputs are the closed form of the pattern in the swapped layout. -/
theorem encodeSingleResult : Obligations.EncodeSingleResult := by
  intro p s
  rw [exec_eq_outputs, outputs_encodeSingle]

/-- Settles O21: the outputs are the closed form of the pattern in the swapped layout. -/
theorem encodeDoubleResult : Obligations.EncodeDoubleResult := by
  intro p s
  rw [exec_eq_outputs, outputs_encodeDouble]

end Sys2Proof.Machine
end

section
/-! Encodings, lines and the layout on the ports (spec/30_encoding.md R60, R61, R77; 40_layout_utility.md R95). -/

namespace Sys2Proof

open Machine

theorem setWidth_extractLsb'_eq_and (a : Word64) : (a.extractLsb' 0 32).setWidth 64 = a &&& 0x00000000FFFFFFFF#64 := by
  apply BitVec.eq_of_toNat_eq
  have hmask : (0x00000000FFFFFFFF#64).toNat = 2 ^ 32 - 1 := rfl
  rw [BitVec.toNat_setWidth_of_le (by decide), BitVec.extractLsb'_toNat, Nat.shiftRight_zero, BitVec.toNat_and,
    hmask, Nat.and_two_pow_sub_one_eq_mod]

/-- Settles O2: a single-width operand comes back as the lower half that was read, under zeros. -/
theorem encodeDecodeKeepsReadOperandBits : Obligations.EncodeDecodeKeepsReadOperandBits := by
  rintro ⟨op, a⟩
  dsimp only
  have hmask := setWidth_extractLsb'_eq_and a
  rcases op_cases op with rfl | rfl | rfl | rfl
  · rw [if_neg (by decide)]
    calc encode (decode ⟨0b00#2, a⟩) = ⟨0b00#2, (be32 (be32Inv (a.extractLsb' 0 32))).setWidth 64⟩ := rfl
      _ = ⟨0b00#2, a &&& 0x00000000FFFFFFFF#64⟩ := by rw [be32_be32Inv, hmask]
  · rw [if_pos (by decide)]
    exact congrArg (Presentation.mk 0b01#2) (be64_be64Inv a)
  · rw [if_neg (by decide)]
    exact congrArg (Presentation.mk 0b10#2) hmask
  · rw [if_pos (by decide)]
    rfl

/-- Settles O3: the words are computed; the decoder of wide codes tests `code < 4`. -/
theorem operationCodesSelectTheFourOperations : Obligations.OperationCodesSelectTheFourOperations := by
  refine ⟨by decide, by decide, by decide, by decide, fun c a => ?_⟩
  by_cases hc : c < 4
  · simp [decodeOpCode, hc]
  · simp [decodeOpCode, hc, Nat.le_of_not_lt hc]

theorem parse_toLine (i : Instr) : i.toLine.parse = .ok i := by
  cases i with
  | decodeSingle u => rfl
  | decodeDouble u => rfl
  | encodeSingle p => rw [Instr.toLine, Line.parse, if_pos p.isLt, BitVec.ofNat_toNat, BitVec.setWidth_eq]
  | encodeDouble p => rw [Instr.toLine, Line.parse, if_pos p.isLt, BitVec.ofNat_toNat, BitVec.setWidth_eq]

theorem toLine_of_parse {l : Line} {i : Instr} (h : l.parse = .ok i) : i.toLine = l := by
  unfold Line.parse at h
  split at h
  case h_1 | h_4 => cases h; rfl
  case h_7 n | h_9 n =>
    split at h
    · cases h
      rw [Instr.toLine, BitVec.toNat_ofNat, Nat.mod_eq_of_lt ‹_›]
    · cases h
  all_goals cases h

/-- Settles O4: a line parses to an instruction only in the cases that `toLine` writes. -/
theorem linesWriteExactlyTheInstructions : Obligations.LinesWriteExactlyTheInstructions :=
  ⟨parse_toLine, fun _ _ => toLine_of_parse⟩

theorem parse_decodeSingle_of_length {bs : List Byte} (h : bs.length ≠ 4) :
    (Line.mk .decodeSingle (.bytes bs)).parse = .error (.unitLength bs.length) :=
  match bs, h with
  | [], _ | [_], _ | [_, _], _ | [_, _, _], _ | _ :: _ :: _ :: _ :: _ :: _, _ => rfl
  | [_, _, _, _], h => absurd rfl h

theorem parse_decodeDouble_of_length {bs : List Byte} (h : bs.length ≠ 8) :
    (Line.mk .decodeDouble (.bytes bs)).parse = .error (.unitLength bs.length) :=
  match bs, h with
  | [], _ | [_], _ | [_, _], _ | [_, _, _], _ | [_, _, _, _], _ | [_, _, _, _, _], _ | [_, _, _, _, _, _], _
  | [_, _, _, _, _, _, _], _ | _ :: _ :: _ :: _ :: _ :: _ :: _ :: _ :: _ :: _, _ => rfl
  | [_, _, _, _, _, _, _, _], h => absurd rfl h

/-- Settles O5: a listing by its length, a pattern by its bound, and the two kinds of operand by the line's own case. -/
theorem partialUnitsAreRefused : Obligations.PartialUnitsAreRefused :=
  ⟨fun _ => parse_decodeSingle_of_length, fun _ => parse_decodeDouble_of_length,
    fun _ h => if_neg (Nat.not_lt.mpr h), fun _ h => if_neg (Nat.not_lt.mpr h),
    fun _ => ⟨rfl, rfl⟩, fun _ => ⟨rfl, rfl⟩⟩

/-- Settles O9: the port value of a unit is its big-endian word, so only the swap of each half is left. -/
theorem layoutOnThePorts : Obligations.LayoutOnThePorts := by
  refine ⟨fun a => unpack32_be32Inv _, fun a => ?_, be32_pack32, fun l => ?_, by decide⟩
  · rw [unpack64, be64Inv, DoubleUnit.first_ofRuns, DoubleUnit.last_ofRuns, unpack32_be32Inv, unpack32_be32Inv]
    rfl
  · rw [be64_pack64_eq_append]
    exact ⟨BitVec.extractLsb'_append_eq_left, BitVec.extractLsb'_append_eq_right⟩

end Sys2Proof
end

section
/-! The fields of a word under the masks of the constant table (spec/00_scope.md R8, 30_encoding.md R74), bit by bit. -/

namespace Sys2Proof.Machine

variable {f : Format}

theorem getLsbD_expMask_mantSize_add {i : Nat} (h : f.mantSize + i < 1 + f.expSize + f.mantSize) :
    f.expMask.getLsbD (f.mantSize + i) = decide (i < f.expSize) := by
  simp [Format.expMask, h]

theorem and_expMask (w : f.Word) : (w &&& f.expMask) >>> f.mantSize = (expOf f w).setWidth _ := by
  apply BitVec.eq_of_getLsbD_eq
  intro i hi
  rw [BitVec.getLsbD_ushiftRight, BitVec.getLsbD_and, BitVec.getLsbD_setWidth, expOf, BitVec.getLsbD_extractLsb']
  by_cases h : f.mantSize + i < 1 + f.expSize + f.mantSize
  · simp [getLsbD_expMask_mantSize_add h, hi, Bool.and_comm]
  · simp [BitVec.getLsbD_of_ge w _ (Nat.le_of_not_lt h)]

theorem and_mantMask (w : f.Word) : w &&& f.mantMask = (mantOf f w).setWidth _ := by
  apply BitVec.eq_of_getLsbD_eq
  intro i hi
  simp [Format.mantMask, mantOf, hi, Bool.and_comm]

theorem getLsbD_signBit {i : Nat} (hi : i < 1 + f.expSize + f.mantSize) :
    f.signBit.getLsbD i = decide (i = f.expSize + f.mantSize) := by
  simp only [Format.signBit, BitVec.getLsbD_shiftLeft, hi, decide_true, Bool.true_and, BitVec.getLsbD_one]
  rw [Bool.eq_iff_iff]
  simp
  omega

/-- The sign bit alone is what the mask leaves. -/
theorem and_signBit_ne_zero_iff (w : f.Word) : w &&& f.signBit ≠ 0 ↔ signOf f w = 1 := by
  have hsign : signOf f w = 1 ↔ w.getLsbD (f.expSize + f.mantSize) = true := by
    have hbit (x : BitVec 1) : x = 1 ↔ x.getLsbD 0 = true := by revert x; decide
    rw [hbit, signOf, BitVec.getLsbD_extractLsb']
    simp
  rw [hsign]
  constructor
  · intro hne
    by_contra hclear
    refine hne (BitVec.eq_of_getLsbD_eq fun i hi => ?_)
    rw [BitVec.getLsbD_and, getLsbD_signBit hi]
    rcases eq_or_ne i (f.expSize + f.mantSize) with rfl | hi'
    · simpa using hclear
    · simp [hi']
  · intro hset hzero
    have hbit := congrArg (·.getLsbD (f.expSize + f.mantSize)) hzero
    have hmask : f.signBit.getLsbD (f.expSize + f.mantSize) = true := by rw [getLsbD_signBit (by omega)]; simp
    rw [BitVec.getLsbD_and, hset, hmask] at hbit
    exact absurd hbit (by simp)

/-- Settles O10: each mask keeps the bits of its own field, in a format of any size. -/
theorem fieldsAreTheMaskedParts : Obligations.FieldsAreTheMaskedParts :=
  fun _ _ w => ⟨and_expMask w, and_mantMask w, and_signBit_ne_zero_iff w⟩

end Sys2Proof.Machine
end

section
/-! Tags, signs and zeros of both directions, and the machine's frame (spec/41_single_width.md R111, 60_exceptions.md R141 to
R146, 10_state.md R29). -/

namespace Sys2Proof.Machine

variable {f : Format}

/-- The tag of a decode is RESERVED_OPERAND in the first case of `Decoded` alone. -/
theorem dec_reservedOperand_iff (hf : f.Standard) (l : f.Word) :
    (dec f l).2 = .reservedOperand ↔ signOf f l = 1 ∧ expOf f l = 0 := by
  have h := dec_decoded hf l
  generalize (dec f l).1 = w, (dec f l).2 = c at h ⊢
  cases h with
  | reserved he hs => exact iff_of_true rfl ⟨hs, he⟩
  | zero he hs => exact iff_of_false nofun fun h => hs h.1
  | normal he | subnormal he =>
    refine iff_of_false nofun fun h => ?_
    have hexp : (expOf f l).toNat = 0 := toNat_of_eq_zero h.2
    omega

/-- Settles O13: the tag is that of the first case of `Decoded`, and every other case gives OK. -/
theorem reservedOperandExactly : Obligations.ReservedOperandExactly := by
  intro f hknown l
  have hf := Format.standard_of_known hknown
  refine ⟨dec_reservedOperand_iff hf l, fun hreserved => ?_, ?_⟩
  · rcases dec_tag hf l with hok | ⟨-, hzero⟩
    · exact absurd (hok.symm.trans hreserved) (by decide)
    · exact hzero
  · exact (dec_tag hf l).imp_right And.left

/-- Settles O33: a zero pattern passes the encode's first test; exponent 0 and sign 0 decode to `+0`. -/
theorem zerosAreCanonical : Obligations.ZerosAreCanonical := by
  intro f _
  exact ⟨fun s => enc_of_zero f (expOf_joinFields ..) (mantOf_joinFields ..), dec_joinFields_zero f⟩

theorem signOf_dec (hf : f.Standard) (l : f.Word) (hne : (dec f l).1 ≠ 0) : signOf f (dec f l).1 = signOf f l := by
  have h := dec_decoded hf l
  generalize (dec f l).1 = w, (dec f l).2 = c at h hne ⊢
  cases h with
  | reserved | zero => exact absurd rfl hne
  | normal _ hsign | subnormal _ hsign => exact hsign

theorem signOf_enc (hf : f.Standard) (p : f.Word) (hne : (enc f p).1 ≠ 0) : signOf f (enc f p).1 = signOf f p := by
  have h := enc_encoded hf p
  generalize (enc f p).1 = l, (enc f p).2 = c at h hne ⊢
  cases h with
  | special _ hsign => exact hsign
  | overflow _ hsign => exact hsign
  | normal _ _ hsign => exact hsign
  | subnormal _ _ _ hsign => exact hsign
  | underflow => exact absurd rfl hne

/-- A word with a non-zero exponent is not the zero word. -/
theorem ne_zero_of_exp_ne_zero {w : f.Word} (he : (expOf f w).toNat ≠ 0) : w ≠ 0 :=
  fun h => he (by rw [h, expOf_zero]; rfl)

theorem enc_ne_zero_of_tag (hf : f.Standard) (p : f.Word) (htag : (enc f p).2 ≠ .ok) : (enc f p).1 ≠ 0 := by
  have h := enc_encoded hf p
  have hexpSize := hf.eight_le_two_pow_expSize
  generalize (enc f p).1 = l, (enc f p).2 = c at h htag ⊢
  cases h with
  | special | overflow => exact ne_zero_of_exp_ne_zero (by omega)
  | normal | subnormal | underflow => exact absurd rfl htag

/-- Settles O34: in every case of `Decoded` and `Encoded` the result is 0 or has the sign of the input. -/
theorem nonzeroResultsKeepTheSign : Obligations.NonzeroResultsKeepTheSign := by
  intro f hknown w
  have hf := Format.standard_of_known hknown
  exact ⟨signOf_dec hf w, signOf_enc hf w, enc_ne_zero_of_tag hf w⟩

/-- Settles O46: the outputs at reset are those of `decodeSingle` of four zero bytes, which gives `+0` with OK. -/
theorem resetIsSettledAndLegal : Obligations.ResetIsSettledAndLegal := by
  have hreset : State.reset.result = outputs (decode State.reset.presented) := by decide
  exact ⟨hreset.trans (outputs_decode _), outputsLegal_decodeSingle (l := 0) rfl (by decide) (by decide)⟩

/-- Settles O47: the first clause is what a step is; the second rests on the round trip of the encoder. -/
theorem stepRunsTheDecodedInstruction : Obligations.StepRunsTheDecodedInstruction := by
  refine ⟨fun s i h => congrArg (exec · s) h, fun i s => ?_⟩
  exact congrArg (exec · (s.present (encode i))) (decodeEncodeRoundTrip i)

/-- The two tags of a decode, in the rows of both decodes. -/
theorem mayGive_decode {c : Cond} (h : c = .ok ∨ c = .reservedOperand) :
    mayGive .decodeSingle c = true ∧ mayGive .decodeDouble c = true := by
  rcases h with rfl | rfl <;> decide

/-- The three tags of an encode, in the rows of both encodes. -/
theorem mayGive_encode {c : Cond} (h : c = .ok ∨ c = .noEquivalent ∨ c = .overflow) :
    mayGive .encodeSingle c = true ∧ mayGive .encodeDouble c = true := by
  rcases h with rfl | rfl | rfl <;> decide

/-- Every instruction delivers a tag of its operation's row of the opcode table. -/
theorem mayGive_delivered (i : Instr) : mayGive i.mnemonic (delivered i).2 = true := by
  have hdec {f : Format} (hf : f.Standard) (l : f.Word) := mayGive_decode ((dec_tag hf l).imp_right And.left)
  have henc {f : Format} (hf : f.Standard) (p : f.Word) :=
    mayGive_encode ((enc_tag hf p).imp_right (Or.imp And.left And.left))
  cases i with
  | decodeSingle u => exact (hdec Format.single_standard (unpack32 u)).1
  | decodeDouble u => exact (hdec Format.double_standard (unpack64 u)).2
  | encodeSingle p => exact (henc Format.single_standard p).1
  | encodeDouble p => exact (henc Format.double_standard p).2

/-- Settles O48: every instruction drives the outputs, and delivers a tag of its own row. -/
theorem everyOperationCompletes : Obligations.EveryOperationCompletes :=
  fun i s => ⟨_, _, exec_eq_drive i s, rfl, mayGive_delivered i, rfl, rfl⟩

/-- A single-width code reads the lower half of the port alone. -/
theorem decode_append_of_single_width {op : BitVec 2} (hop : op.getLsbD 0 = false) (x x' lo : Word32) :
    decode ⟨op, x ++ lo⟩ = decode ⟨op, x' ++ lo⟩ := by
  have hlower (z : Word32) : (z ++ lo).extractLsb' 0 32 = lo := BitVec.extractLsb'_append_eq_right
  have hlo := (hlower x).trans (hlower x').symm
  rcases op_cases op with rfl | rfl | rfl | rfl
  · exact congrArg (Instr.decodeSingle ∘ be32Inv) hlo
  · exact absurd hop (by decide)
  · exact congrArg Instr.encodeSingle hlo
  · exact absurd hop (by decide)

/-- A single-width code drives the upper half of the port to 0. -/
theorem delivered_upper_of_single_width {op : BitVec 2} (hop : op.getLsbD 0 = false) (a : Word64) :
    (delivered (decode ⟨op, a⟩)).1.extractLsb' 32 32 = 0 := by
  rcases op_cases op with rfl | rfl | rfl | rfl
  · exact (setWidth_halves _).2
  · exact absurd hop (by decide)
  · exact (setWidth_halves _).2
  · exact absurd hop (by decide)

/-- Settles O49: two operands with one lower half decode to one instruction. -/
theorem singleWidthIgnoresUpperHalf : Obligations.SingleWidthIgnoresUpperHalf := by
  intro op x x' lo s hop
  have ht := evaluate_eq_drive ⟨op, x ++ lo⟩ s
  have ht' := evaluate_eq_drive ⟨op, x' ++ lo⟩ s
  refine ⟨_, _, ht, ht', ?_, delivered_upper_of_single_width hop _⟩
  rw [result_of_evaluate ht, result_of_evaluate ht', decode_append_of_single_width hop x x']

/-- Settles O50: the codes are written out in `Cond.code`. -/
theorem outcomeCodes : Obligations.OutcomeCodes := ⟨rfl, rfl, rfl, rfl⟩

end Sys2Proof.Machine
end

section
/-! The classes of legacy word as ranges (spec/30_encoding.md R67, R69), the encode of what a decode delivers (41_single_width.md
R111 (b)), and what each direction can produce at all (R73). -/

namespace Sys2Proof.Machine

variable {f : Format}

/-- A non-zero exponent puts a word's magnitude bits at or above the hidden bit's weight. -/
theorem two_pow_le_exp_mul {w : f.Word} (he : (expOf f w).toNat ≠ 0) :
    2 ^ f.mantSize ≤ (expOf f w).toNat * 2 ^ f.mantSize :=
  Nat.le_mul_of_pos_left _ (Nat.pos_of_ne_zero he)

theorem signOf_toNat_eq_zero {w : f.Word} (hs : signOf f w ≠ 1) : (signOf f w).toNat = 0 := by
  generalize signOf f w = s at hs ⊢
  revert s
  decide

theorem magnitude_lt (w : f.Word) :
    (expOf f w).toNat * 2 ^ f.mantSize + (mantOf f w).toNat < 2 ^ (f.expSize + f.mantSize) :=
  toNat_mod_eq_sum w ▸ Nat.mod_lt _ (Nat.two_pow_pos _)

/-- Settles O36: in each class the sum of the weighted fields lies in the class's range, and in no other. -/
theorem legacyClassesAreRanges : Obligations.LegacyClassesAreRanges := by
  intro f _ l
  dsimp only
  have hsum := toNat_eq_sum l
  have hlt := magnitude_lt l
  have hpow : 2 ^ f.mantSize ≤ 2 ^ (f.expSize + f.mantSize) := Nat.pow_le_pow_right (by decide) (Nat.le_add_left ..)
  have h := legacyClass_classified l
  generalize legacyClass f l = c at h ⊢
  cases h with
  | trueZero he hs hm =>
    rw [signOf_toNat_eq_zero hs, toNat_of_eq_zero he, toNat_of_eq_zero hm] at hsum
    exact ⟨iff_of_true rfl (by omega), iff_of_false nofun (by omega), iff_of_false nofun (by omega),
      iff_of_false nofun (by omega)⟩
  | dirtyZero he hs hm =>
    have hm0 := toNat_ne_zero_of_ne_zero hm
    rw [signOf_toNat_eq_zero hs, toNat_of_eq_zero he] at hsum
    exact ⟨iff_of_false nofun (by omega), iff_of_true rfl (by omega), iff_of_false nofun (by omega),
      iff_of_false nofun (by omega)⟩
  | reservedOperand he hs =>
    have hs1 : (signOf f l).toNat = 1 := congrArg BitVec.toNat hs
    rw [hs1, toNat_of_eq_zero he] at hsum
    exact ⟨iff_of_false nofun (by omega), iff_of_false nofun (by omega), iff_of_true rfl (by omega),
      iff_of_false nofun (by omega)⟩
  | number he =>
    have hexp := two_pow_le_exp_mul (toNat_ne_zero_of_ne_zero he)
    rcases (by omega : (signOf f l).toNat = 0 ∨ (signOf f l).toNat = 1) with hs | hs <;> rw [hs] at hsum
    all_goals
      exact ⟨iff_of_false nofun (by omega), iff_of_false nofun (by omega), iff_of_false nofun (by omega),
        iff_of_true rfl (by omega)⟩

/-! ## Encode of decode -/

theorem exp_ne_zero_of_number {l : f.Word} (h : legacyClass f l = .number) : (expOf f l).toNat ≠ 0 := by
  have hfields := legacyClass_classified l
  rw [h] at hfields
  cases hfields with
  | number he => exact toNat_ne_zero_of_ne_zero he

theorem enc_zero : enc f 0 = (0, .ok) := enc_of_zero f expOf_zero mantOf_zero

theorem enc_fields_of_normal (hf : f.Standard) {p : f.Word} (he : 1 ≤ (expOf f p).toNat)
    (he' : (expOf f p).toNat ≤ 2 ^ f.expSize - 3) :
    (enc f p).2 = .ok ∧ signOf f (enc f p).1 = signOf f p ∧
      (expOf f (enc f p).1).toNat = (expOf f p).toNat + 2 ∧ mantOf f (enc f p).1 = mantOf f p := by
  have h := enc_encoded hf p
  generalize (enc f p).1 = l, (enc f p).2 = c at h ⊢
  cases h with
  | special | overflow => omega
  | normal _ _ hsign hexp hmant => exact ⟨rfl, hsign, hexp, hmant⟩
  | subnormal _ _ he0 | underflow he0 =>
    rw [he0] at he
    exact absurd he (by simp)

/-- For a subnormal not below the range the number of shifts is told by the position of its highest bit. -/
theorem enc_fields_of_subnormal (hf : f.Standard) {p : f.Word} (he : expOf f p = 0) {k : Nat} (hk : k = 1 ∨ k = 2)
    (hlow : 2 ^ f.mantSize ≤ (mantOf f p).toNat * 2 ^ k) (hhigh : (mantOf f p).toNat * 2 ^ k < 2 * 2 ^ f.mantSize) :
    (enc f p).2 = .ok ∧ signOf f (enc f p).1 = signOf f p ∧ (expOf f (enc f p).1).toNat = 3 - k ∧
      2 ^ f.mantSize + (mantOf f (enc f p).1).toNat = (mantOf f p).toNat * 2 ^ k := by
  have h := enc_encoded hf p
  have hexpSize := hf.eight_le_two_pow_expSize
  have hquarter := hf.four_mul_quarter
  have he0 : (expOf f p).toNat = 0 := toNat_of_eq_zero he
  generalize (enc f p).1 = l, (enc f p).2 = c at h ⊢
  cases h with
  | special | overflow | normal => omega
  | underflow _ hm => rcases hk with rfl | rfl <;> omega
  | subnormal k' hk' _ hsign hexp hmant =>
    have hkk : k' = k := by rcases hk with rfl | rfl <;> rcases hk' with rfl | rfl <;> omega
    exact ⟨rfl, hsign, hkk ▸ hexp, hkk ▸ hmant⟩

/-- Encoding a decoded number restores sign and exponent, and the mantissa but for the `3 - e` chopped bits. -/
theorem enc_dec_fields (hf : f.Standard) {l : f.Word} (he : (expOf f l).toNat ≠ 0) :
    (enc f (dec f l).1).2 = .ok ∧ signOf f (enc f (dec f l).1).1 = signOf f l ∧
      (expOf f (enc f (dec f l).1).1).toNat = (expOf f l).toNat ∧
      (mantOf f (enc f (dec f l).1).1).toNat
        = (mantOf f l).toNat - (mantOf f l).toNat % 2 ^ (3 - (expOf f l).toNat) := by
  have h := dec_decoded hf l
  generalize (dec f l).1 = w, (dec f l).2 = c at h ⊢
  cases h with
  | reserved he0 | zero he0 => exact absurd (congrArg BitVec.toNat he0) he
  | normal he3 hsign hexp hmant =>
    obtain ⟨hok, hsign', hexp', hmant'⟩ := enc_fields_of_normal hf (p := w) (by omega) (by omega)
    refine ⟨hok, hsign'.trans hsign, hexp'.trans hexp, ?_⟩
    rw [hmant', hmant, Nat.sub_eq_zero_of_le he3, Nat.pow_zero, Nat.mod_one, Nat.sub_zero]
  | subnormal he12 hsign hexp hmant =>
    have hquarter := hf.four_mul_quarter
    have hback : (mantOf f w).toNat * 2 ^ (3 - (expOf f l).toNat)
        = 2 ^ f.mantSize + ((mantOf f l).toNat - (mantOf f l).toNat % 2 ^ (3 - (expOf f l).toNat)) := by
      rcases he12 with h | h <;> · rw [h] at hmant ⊢; omega
    obtain ⟨hok, hsign', hexp', hmant'⟩ :=
      enc_fields_of_subnormal hf hexp (k := 3 - (expOf f l).toNat) (by omega) (by omega) (by omega)
    exact ⟨hok, hsign'.trans hsign, by omega, by omega⟩

theorem toNat_enc_dec (hf : f.Standard) {l : f.Word} (he : (expOf f l).toNat ≠ 0) :
    (enc f (dec f l).1).1.toNat = l.toNat - (mantOf f l).toNat % 2 ^ (3 - (expOf f l).toNat) := by
  obtain ⟨-, hsign, hexp, hmant⟩ := enc_dec_fields hf he
  have hle := Nat.mod_le (mantOf f l).toNat (2 ^ (3 - (expOf f l).toNat))
  rw [toNat_eq_sum, toNat_eq_sum l, hsign, hexp, hmant]
  omega

theorem enc_dec_eq_iff (hf : f.Standard) {l : f.Word} (he : (expOf f l).toNat ≠ 0) :
    (enc f (dec f l).1).1 = l ↔ (mantOf f l).toNat % 2 ^ (3 - (expOf f l).toNat) = 0 := by
  have hnat := toNat_enc_dec hf he
  have hle := Nat.mod_le (mantOf f l).toNat (2 ^ (3 - (expOf f l).toNat))
  have hsum := toNat_eq_sum l
  rw [BitVec.toNat_eq, hnat]
  omega

theorem dec_of_zero_class {l : f.Word} (h : legacyClass f l = .trueZero ∨ legacyClass f l = .dirtyZero) :
    dec f l = (0, .ok) := by
  have hfields := legacyClass_classified l
  generalize legacyClass f l = c at h hfields
  cases hfields with
  | trueZero he hs | dirtyZero he hs => exact dec_of_zero f he hs
  | reservedOperand | number => exact h.elim nofun nofun

/-- Settles O32: a number comes back but for its chopped bits; the zeros all decode to `+0`, which encodes to true zero. -/
theorem legacyRoundTripLosesOnlyChoppedBits : Obligations.LegacyRoundTripLosesOnlyChoppedBits := by
  intro f hknown l
  have hf := Format.standard_of_known hknown
  refine ⟨fun hnumber => ?_, fun hzero => ?_⟩
  · have he := exp_ne_zero_of_number hnumber
    exact ⟨(enc_dec_fields hf he).1, toNat_enc_dec hf he, enc_dec_eq_iff hf he⟩
  · rw [dec_of_zero_class hzero, enc_zero]

/-! ## The images -/

/-- Settles O38: a pattern of the image other than 0 is representable, and the decode gives it back from its encode. -/
theorem decodeProducesExactlyItsImage : Obligations.DecodeProducesExactlyItsImage := by
  intro f hknown w
  have hf := Format.standard_of_known hknown
  have hback (hw : Representable f w) : ∃ l : f.Word, (dec f l).1 = w :=
    ⟨(enc f w).1, congrArg Prod.fst (dec_enc_of_representable hf hw).2⟩
  constructor
  · rintro (rfl | ⟨he, hm⟩ | ⟨he, he'⟩)
    · have hclass : legacyClass f 0 = .trueZero := legacyClass_zero
      exact ⟨0, congrArg Prod.fst (dec_of_zero_class (.inl hclass))⟩
    · refine hback ⟨fun _ => hm, ?_⟩
      rw [he]
      exact Nat.zero_le _
    · refine hback ⟨fun h0 => ?_, he'⟩
      rw [h0] at he
      exact absurd he (by simp)
  · rintro ⟨l, rfl⟩
    exact decodeImage_dec hf l

/-- Every word of an encode is true zero, or a number whose chopped bits are clear. -/
theorem enc_chopped_bits_clear (hf : f.Standard) (p : f.Word) :
    (enc f p).1 = 0 ∨ ((expOf f (enc f p).1).toNat ≠ 0 ∧
      (mantOf f (enc f p).1).toNat % 2 ^ (3 - (expOf f (enc f p).1).toNat) = 0) := by
  have h := enc_encoded hf p
  have hexpSize := hf.eight_le_two_pow_expSize
  have hquarter := hf.four_mul_quarter
  generalize (enc f p).1 = l, (enc f p).2 = c at h ⊢
  have hexact (he : 3 ≤ (expOf f l).toNat) : l = 0 ∨
      ((expOf f l).toNat ≠ 0 ∧ (mantOf f l).toNat % 2 ^ (3 - (expOf f l).toNat) = 0) := by
    refine .inr ⟨by omega, ?_⟩
    rw [Nat.sub_eq_zero_of_le he, Nat.pow_zero, Nat.mod_one]
  cases h with
  | special | overflow | normal => exact hexact (by omega)
  | underflow => exact .inl rfl
  | subnormal k hk he hsign hexp hmant =>
    refine .inr ⟨by omega, ?_⟩
    rw [hexp]
    rcases hk with rfl | rfl <;> omega

/-- Settles O39: a number whose chopped bits are clear is the encode of its decode. -/
theorem encodeProducesExactlyItsImage : Obligations.EncodeProducesExactlyItsImage := by
  intro f hknown l
  have hf := Format.standard_of_known hknown
  constructor
  · rintro ⟨p, rfl⟩
    exact enc_chopped_bits_clear hf p
  · rintro (rfl | ⟨he, hm⟩)
    · exact ⟨0, congrArg Prod.fst enc_zero⟩
    · exact ⟨(dec f l).1, (enc_dec_eq_iff hf he).mpr hm⟩

end Sys2Proof.Machine
end

section
/-! The boundary of the encode underflow (spec/41_single_width.md R108, 42_double_width.md R127), the exponent ranges
(00_scope.md R12), and the count of the re-normalisation (R107, R126). -/

namespace Sys2Proof.Machine

variable {f : Format}

theorem enc_eq_zero_iff (hf : f.Standard) (p : f.Word) :
    enc f p = (0, .ok) ↔ p.toNat % 2 ^ (f.expSize + f.mantSize) < 2 ^ (f.mantSize - 2) := by
  have h := enc_encoded hf p
  have hexpSize := hf.eight_le_two_pow_expSize
  have hquarter := hf.four_mul_quarter
  have hlarge (he : (expOf f p).toNat ≠ 0) := two_pow_le_exp_mul he
  rw [toNat_mod_eq_sum, Prod.ext_iff]
  generalize (enc f p).1 = l, (enc f p).2 = c at h ⊢
  cases h with
  | special he | overflow he => exact iff_of_false nofun (by have := hlarge (by omega); omega)
  | normal he _ _ hexp =>
    refine iff_of_false (fun h => ?_) (by have := hlarge (by omega); omega)
    exact ne_zero_of_exp_ne_zero (by omega) h.1
  | subnormal k hk he hsign hexp hmant =>
    refine iff_of_false (fun h => ?_) (by rcases hk with rfl | rfl <;> omega)
    exact ne_zero_of_exp_ne_zero (by omega) h.1
  | underflow he hm =>
    refine iff_of_true ⟨rfl, rfl⟩ ?_
    rw [he, BitVec.ofNat_eq_ofNat, BitVec.toNat_zero]
    omega

/-- Settles O23: the boundary of either width, with its constants. -/
theorem encodeUnderflowsExactlyBelowRange : Obligations.EncodeUnderflowsExactlyBelowRange :=
  ⟨enc_eq_zero_iff Format.single_standard, enc_eq_zero_iff Format.double_standard⟩

theorem dec_exponent_bounds (hf : f.Standard) {l : f.Word} (he : expOf f l ≠ 0) :
    -1 ≤ ((expOf f l).toNat : Int) - f.adj ∧ ((expOf f l).toNat : Int) - f.adj ≤ (2 ^ f.expSize - 3 : Nat) := by
  have he0 := toNat_ne_zero_of_ne_zero he
  have hadj := hf.adj_eq
  omega

theorem encodeOperand_bounds (hf : f.Standard) {p : f.Word} (hne : p.toNat % 2 ^ (f.expSize + f.mantSize) ≠ 0)
    (hfinite : (expOf f p).toNat ≠ 2 ^ f.expSize - 1) :
    1 - (f.mantSize : Int) ≤ (encodeOperand f p).1 ∧ (encodeOperand f p).1 + f.adj ≤ (2 ^ f.expSize : Nat) := by
  have hadj := hf.adj_eq
  by_cases he : expOf f p = 0
  · have hm : mantOf f p ≠ 0 := by
      rw [toNat_mod_eq_sum, he] at hne
      exact fun hm => hne (by rw [hm]; simp)
    obtain ⟨k, hk1, hk, -, -, hrenorm⟩ := renorm_spec hm
    rw [encodeOperand_of_subnormal f he, hrenorm]
    constructor <;> dsimp only <;> omega
  · have he0 := toNat_ne_zero_of_ne_zero he
    rw [encodeOperand_of_normal f he]
    constructor <;> dsimp only <;> omega

/-- Settles O40: the bounds of either width, with its constants. -/
theorem exponentsStayInTheStatedRanges : Obligations.ExponentsStayInTheStatedRanges :=
  ⟨fun _ => dec_exponent_bounds Format.single_standard, fun _ => dec_exponent_bounds Format.double_standard,
    fun _ => encodeOperand_bounds Format.single_standard, fun _ => encodeOperand_bounds Format.double_standard⟩

/-- The number of shifts that brings the highest set bit to the hidden position. -/
theorem eq_sub_log2 {w m k : Nat} (hlow : 2 ^ w ≤ m * 2 ^ k) (hhigh : m * 2 ^ k < 2 ^ (w + 1)) (hk : k ≤ w) :
    k = w - m.log2 := by
  have hlow' : 2 ^ (w - k) ≤ m := by
    refine Nat.le_of_mul_le_mul_right ?_ (Nat.two_pow_pos k)
    rwa [← Nat.pow_add, Nat.sub_add_cancel hk]
  have hhigh' : m < 2 ^ (w - k + 1) := by
    refine Nat.lt_of_mul_lt_mul_right (a := 2 ^ k) ?_
    rwa [← Nat.pow_add, show w - k + 1 + k = w + 1 by omega]
  have hlog := (Nat.log2_eq_iff (by omega)).mpr ⟨hlow', hhigh'⟩
  omega

theorem renorm_eq_log2 {m : BitVec f.mantSize} (hm : m ≠ 0) :
    let k := f.mantSize - m.toNat.log2
    1 ≤ k ∧ k ≤ f.mantSize ∧ 2 ^ f.mantSize ≤ m.toNat * 2 ^ k ∧
    renorm f m = (1 - (k : Int), BitVec.ofNat f.mantSize (m.toNat * 2 ^ k - 2 ^ f.mantSize)) ∧
    m.toNat * 2 ^ k = 2 ^ f.mantSize + (renorm f m).2.toNat := by
  obtain ⟨k, hk1, hk, hlow, hhigh, hrenorm⟩ := renorm_spec hm
  rw [← eq_sub_log2 hlow hhigh hk]
  refine ⟨hk1, hk, hlow, hrenorm, ?_⟩
  rw [hrenorm, BitVec.toNat_ofNat, Nat.mod_eq_of_lt (by omega)]
  omega

end Sys2Proof.Machine
end

section
/-! The two-half loops of the double width (spec/42_double_width.md R123, R126) are the shifts of one 53-bit integer (R129). -/

namespace Sys2Proof.Machine

/-- The two halves read as one 53-bit integer (R129). -/
def Halves.joined (h : Halves) : BitVec 53 := h.hi ++ h.lo

theorem Halves.getLsbD_joined (h : Halves) (i : Nat) :
    h.joined.getLsbD i = if i < 32 then h.lo.getLsbD i else h.hi.getLsbD (i - 32) :=
  BitVec.getLsbD_append

theorem Halves.getLsbD_shiftRightOne_lo (h : Halves) {i : Nat} (hi : i < 32) :
    h.shiftRightOne.lo.getLsbD i = if i < 31 then h.lo.getLsbD (i + 1) else h.hi.getLsbD 0 := by
  simp only [Halves.shiftRightOne, BitVec.getLsbD_or, BitVec.getLsbD_ushiftRight, BitVec.getLsbD_shiftLeft,
    BitVec.getLsbD_and, BitVec.getLsbD_setWidth]
  by_cases h31 : i < 31
  · simp [h31, Nat.add_comm]
  · have : i = 31 := by omega
    subst this
    simp

theorem Halves.joined_shiftRightOne (h : Halves) : h.shiftRightOne.joined = h.joined >>> 1 := by
  apply BitVec.eq_of_getLsbD_eq
  intro i hi
  rw [BitVec.getLsbD_ushiftRight, Halves.getLsbD_joined, Halves.getLsbD_joined]
  rcases Nat.lt_trichotomy i 31 with h31 | rfl | h31
  · rw [if_pos (by omega), if_pos (by omega), Halves.getLsbD_shiftRightOne_lo h (by omega), if_pos h31,
      Nat.add_comm]
  · rw [if_pos (by omega), if_neg (by omega), Halves.getLsbD_shiftRightOne_lo h (by omega), if_neg (by omega)]
  · rw [if_neg (by omega), if_neg (by omega), Halves.shiftRightOne, BitVec.getLsbD_ushiftRight,
      show 1 + i - 32 = 1 + (i - 32) by omega]

theorem Halves.joined_shiftRight (h : Halves) (j : Nat) : (Halves.shiftRight j h).joined = h.joined >>> j := by
  induction j generalizing h with
  | zero => rfl
  | succ j ih => rw [Halves.shiftRight, ih, Halves.joined_shiftRightOne, ← BitVec.shiftRight_add, Nat.add_comm]

theorem Halves.getLsbD_shiftLeftOne_hi (h : Halves) {i : Nat} (hi : i < 21) :
    h.shiftLeftOne.hi.getLsbD i = if i = 0 then h.lo.getLsbD 31 else h.hi.getLsbD (i - 1) := by
  simp only [Halves.shiftLeftOne, BitVec.getLsbD_or, BitVec.getLsbD_shiftLeft, BitVec.getLsbD_setWidth,
    BitVec.getLsbD_ushiftRight]
  rcases Nat.eq_zero_or_pos i with rfl | hpos
  · simp
  · have hout : h.lo.getLsbD (31 + i) = false := BitVec.getLsbD_of_ge _ _ (by omega)
    simp [hi, hout, Nat.pos_iff_ne_zero.mp hpos, Nat.not_lt.mpr hpos]

theorem Halves.joined_shiftLeftOne (h : Halves) : h.shiftLeftOne.joined = h.joined <<< 1 := by
  apply BitVec.eq_of_getLsbD_eq
  intro i hi
  rw [BitVec.getLsbD_shiftLeft, Halves.getLsbD_joined, Halves.getLsbD_joined]
  rcases Nat.lt_trichotomy i 32 with h32 | rfl | h32
  · rw [if_pos h32, if_pos (by omega), Halves.shiftLeftOne, BitVec.getLsbD_shiftLeft]
    simp [h32, hi]
  · rw [if_neg (by omega), if_pos (by omega), Halves.getLsbD_shiftLeftOne_hi h (by omega), if_pos (by omega)]
    rfl
  · rw [if_neg (by omega), if_neg (by omega), Halves.getLsbD_shiftLeftOne_hi h (by omega), if_neg (by omega),
      show i - 1 - 32 = i - 32 - 1 by omega]
    simp [hi, Nat.not_lt.mpr (by omega : 1 ≤ i)]

theorem Halves.joined_iterate_shiftLeftOne (h : Halves) (j : Nat) :
    (Halves.shiftLeftOne^[j] h).joined = h.joined <<< j := by
  induction j with
  | zero => exact (BitVec.shiftLeft_zero _).symm
  | succ j ih => rw [Function.iterate_succ_apply', Halves.joined_shiftLeftOne, ih, ← BitVec.shiftLeft_add]

/-- While no set bit is lost a left shift multiplies. -/
theorem Halves.joined_iterate_shiftLeftOne_toNat (h : Halves) (j : Nat) (hlt : h.joined.toNat * 2 ^ j < 2 ^ 53) :
    (Halves.shiftLeftOne^[j] h).joined.toNat = h.joined.toNat * 2 ^ j := by
  rw [Halves.joined_iterate_shiftLeftOne, BitVec.toNat_shiftLeft, Nat.shiftLeft_eq, Nat.mod_eq_of_lt hlt]

/-- The mantissa field of the joined halves: the high half without the hidden bit's position, above the low half. -/
theorem Halves.setWidth_joined (h : Halves) : h.joined.setWidth 52 = h.hi.setWidth 20 ++ h.lo := by
  apply BitVec.eq_of_getLsbD_eq
  intro i hi
  rw [BitVec.getLsbD_setWidth, Halves.getLsbD_joined, BitVec.getLsbD_append, BitVec.getLsbD_setWidth]
  by_cases h32 : i < 32
  · simp [h32, hi]
  · simp [h32, hi, show i - 32 < 20 by omega]

/-! ## The encode loop -/

theorem renormHalvesLoop_joined (n : Nat) (h : Halves) (e : Int) :
    (renormHalvesLoop n h e).1 = (renormLoop 52 n h.joined e).1 ∧
    (renormHalvesLoop n h e).2.joined = (renormLoop 52 n h.joined e).2 := by
  induction n generalizing h e with
  | zero => exact ⟨rfl, rfl⟩
  | succ n ih =>
    have hbit : h.joined.getLsbD 52 = h.hi.getLsbD 20 := Halves.getLsbD_joined h 52
    rw [renormHalvesLoop, renormLoop, hbit]
    by_cases htop : h.hi.getLsbD 20
    · rw [if_pos htop, if_pos htop]
      exact ⟨rfl, rfl⟩
    · rw [if_neg htop, if_neg htop, ← Halves.joined_shiftLeftOne]
      exact ih ..

theorem joined_mantissa (m : BitVec 52) :
    Halves.joined ⟨(m.extractLsb' 32 20).setWidth 21, m.extractLsb' 0 32⟩ = m.setWidth 53 := by
  apply BitVec.eq_of_getLsbD_eq
  intro i hi
  rw [Halves.getLsbD_joined, BitVec.getLsbD_setWidth]
  by_cases h32 : i < 32
  · simp [h32, hi]
  · simp only [h32, hi, if_false, BitVec.getLsbD_setWidth, BitVec.getLsbD_extractLsb', decide_true, Bool.true_and,
      show 32 + (i - 32) = i by omega, show i - 32 < 21 by omega]
    by_cases h52 : i - 32 < 20
    · simp [h52]
    · simp [h52, BitVec.getLsbD_of_ge m i (by omega)]

theorem renormHalves_eq_renorm (m : BitVec 52) : renormHalves m = renorm .double m := by
  obtain ⟨hexp, hmant⟩ :=
    renormHalvesLoop_joined 52 ⟨(m.extractLsb' 32 20).setWidth 21, m.extractLsb' 0 32⟩ 1
  rw [joined_mantissa] at hexp hmant
  exact Prod.ext hexp ((Halves.setWidth_joined _).symm.trans (congrArg (BitVec.setWidth 52) hmant))

/-! ## The decode loop -/

/-- The halves the decode starts from are the hidden-bit-prefixed mantissa. -/
theorem joined_withHidden (l : Word64) :
    Halves.joined ⟨0x100000#21 ||| (l.extractLsb' 32 20).setWidth 21, l.extractLsb' 0 32⟩
      = withHidden .double (mantOf .double l) := by
  have hhidden : Format.double.hiddenBit = Halves.joined ⟨0x100000#21, 0#32⟩ := by decide
  have hmant : (mantOf .double l).setWidth 53
      = Halves.joined ⟨(l.extractLsb' 32 20).setWidth 21, l.extractLsb' 0 32⟩ := by
    rw [← joined_mantissa, mantOf, extractLsb'_extractLsb' l (by decide), extractLsb'_extractLsb' l (by decide)]
  rw [withHidden, hhidden, hmant]
  apply BitVec.eq_of_getLsbD_eq
  intro i hi
  rw [BitVec.getLsbD_or, Halves.getLsbD_joined, Halves.getLsbD_joined, Halves.getLsbD_joined]
  by_cases h32 : i < 32
  · simp [h32]
  · simp [h32]

/-- Decoding exponent 1 or 2 shifts the hidden-bit-prefixed mantissa right and chops it (R104, R123). -/
theorem dec_of_exp_one_or_two {f : Format} (hf : f.Standard) {l : f.Word}
    (he : (expOf f l).toNat = 1 ∨ (expOf f l).toNat = 2) :
    dec f l = (joinFields f (signOf f l) 0
      (BitVec.ofNat f.mantSize ((2 ^ f.mantSize + (mantOf f l).toNat) / 2 ^ (3 - (expOf f l).toNat))), .ok) := by
  have hlt := hidden_div_lt (mantOf f l).isLt (k := 3 - (expOf f l).toNat) (by omega)
  refine dec_eq_of_subnormal_fields hf he (signOf_joinFields ..).symm (expOf_joinFields ..) ?_
  rw [mantOf_joinFields, BitVec.toNat_ofNat, Nat.mod_eq_of_lt hlt]

theorem decodeShift_eq (e : Nat) : (1 - ((e : Int) - Format.double.adj)).toNat = 3 - e := by
  rw [Format.double_standard.adj_eq]
  omega

/-- The two-half loop gives the chopped mantissa under the sign. -/
theorem decodeSubnormalHalves_eq (l : Word64) :
    decodeSubnormalHalves l = joinFields .double (signOf .double l) 0
      (BitVec.ofNat 52 ((2 ^ 52 + (mantOf .double l).toNat) / 2 ^ (3 - (expOf .double l).toNat))) := by
  have hshifted : BitVec.ofNat 52 ((2 ^ 52 + (mantOf .double l).toNat) / 2 ^ (3 - (expOf .double l).toNat))
      = (withHidden .double (mantOf .double l) >>> (3 - (expOf .double l).toNat)).setWidth 52 := by
    apply BitVec.eq_of_toNat_eq
    rw [BitVec.toNat_ofNat, BitVec.toNat_setWidth, BitVec.toNat_ushiftRight, withHidden_toNat,
      Nat.shiftRight_eq_div_pow]
  rw [hshifted, ← joined_withHidden, ← Halves.joined_shiftRight, Halves.setWidth_joined, ← decodeShift_eq]
  exact BitVec.append_assoc

theorem decodeSubnormalHalves_eq_dec64 {l : Word64}
    (he : (expOf .double l).toNat = 1 ∨ (expOf .double l).toNat = 2) : dec64 l = (decodeSubnormalHalves l, .ok) := by
  rw [decodeSubnormalHalves_eq]
  exact dec_of_exp_one_or_two Format.double_standard he

/-- Settles O19: one step of either loop is one shift of the joined halves, so the loops agree with the wide shifts. -/
theorem halfLoopsAgreeWithWideShifts : Obligations.HalfLoopsAgreeWithWideShifts := by
  refine ⟨Halves.joined_shiftRight, Halves.joined_iterate_shiftLeftOne_toNat, fun l he => ⟨?_, ?_⟩,
    fun m hm => ?_⟩
  · rw [decodeShift_eq]
    omega
  · exact (congrArg Prod.fst (decodeSubnormalHalves_eq_dec64 he)).symm
  · obtain ⟨k, hk1, hk, hlow, hhigh, hrenorm⟩ := renorm_spec (f := .double) hm
    have hhalves := renormHalves_eq_renorm m
    exact ⟨k, hk1, hk, hlow, hhigh, hhalves.trans hrenorm, hhalves⟩

/-- Settles O22: the count of the shifts is read off the highest set bit, and the examples are computed. -/
theorem renormCountsFromExponentOne : Obligations.RenormCountsFromExponentOne :=
  ⟨fun _ _ _ hm => renorm_eq_log2 hm, fun m _ => renormHalves_eq_renorm m, by decide, by decide, by decide,
    by decide⟩

end Sys2Proof.Machine
end

section
/-! The values of both sides as whole multiples of one unit (spec/30_encoding.md R70, R72): an IEEE pattern is a multiple of
the smallest IEEE subnormal, and a legacy word a multiple of an eighth of it. In these units a decode divides by 8 and drops
the remainder, and an encode multiplies by 8, so that what the rules say of values becomes arithmetic on integers. -/

namespace Sys2Proof.Machine

variable (f : Format)

/-- The value of the smallest IEEE subnormal (R72). -/
def subnormalUnit : ℚ := (2 : ℚ) ^ ((1 : ℤ) - f.ieeeBias - f.mantSize)

/-- The magnitude of a finite IEEE pattern, in units. -/
def ieeeMagnitude (w : f.Word) : Nat :=
  if (expOf f w).toNat = 0 then (mantOf f w).toNat
  else (2 ^ f.mantSize + (mantOf f w).toNat) * 2 ^ ((expOf f w).toNat - 1)

/-- The magnitude of a legacy word, in eighths of the unit. -/
def legacyMagnitude (l : f.Word) : Nat :=
  if (expOf f l).toNat = 0 then 0 else (2 ^ f.mantSize + (mantOf f l).toNat) * 2 ^ (expOf f l).toNat

/-- A magnitude under a sign bit. -/
def signed (s : BitVec 1) (n : Nat) : ℤ := if s = 1 then -(n : ℤ) else n

theorem signed_zero (s : BitVec 1) : signed s 0 = 0 := by simp [signed]

theorem cast_signed (s : BitVec 1) (n : Nat) : (signed s n : ℚ) = signFactor s * n := by
  unfold signed signFactor
  split <;> simp

theorem abs_signed (s : BitVec 1) (n : Nat) : |(signed s n : ℚ)| = n := by
  unfold signed
  split <;> simp

/-- A monotone function of magnitudes that keeps 0 is monotone on signed numbers. -/
theorem signed_mono {g : Nat → Nat} (hg : Monotone g) (h0 : g 0 = 0) {s s' : BitVec 1} {n n' : Nat}
    (h : signed s n ≤ signed s' n') : signed s (g n) ≤ signed s' (g n') := by
  unfold signed at h ⊢
  by_cases hs : s = 1 <;> by_cases hs' : s' = 1 <;> simp only [hs, hs', if_true, if_false] at h ⊢
  · have := hg (show n' ≤ n by omega)
    omega
  · omega
  · have hn : n = 0 := by omega
    have hn' : n' = 0 := by omega
    simp [hn, hn', h0]
  · exact_mod_cast hg (show n ≤ n' by omega)

variable {f}

theorem subnormalUnit_pos : 0 < subnormalUnit f := zpow_pos two_pos _

/-- An eighth of the unit is the value of the last mantissa bit of a legacy word with exponent 0 (R70). -/
theorem subnormalUnit_div_eight (hf : f.Standard) :
    subnormalUnit f / 8 = (2 : ℚ) ^ (-(f.legacyBias : ℤ) - f.mantSize - 1) := by
  have hbias := hf.legacyBias_eq
  have hexp : -(f.legacyBias : ℤ) - f.mantSize - 1 = (1 - f.ieeeBias - f.mantSize) - 3 := by omega
  rw [hexp, zpow_sub₀ two_ne_zero, subnormalUnit]
  norm_num

theorem ieeeValue_of_allOnes (hf : f.Standard) {w : f.Word} (he : expOf f w = BitVec.allOnes f.expSize) :
    ieeeValue f w = none := by
  have hclass : ieeeClass f w = .infinity ∨ ieeeClass f w = .nan := by
    rw [ieeeClass, if_neg (he ▸ hf.allOnes_ne_zero), if_pos he]
    split
    · exact .inl rfl
    · exact .inr rfl
  rcases hclass with h | h <;> rw [ieeeValue, h]

theorem ieeeValue_of_finite {w : f.Word} (he : expOf f w ≠ BitVec.allOnes f.expSize) :
    ieeeValue f w = some (signed (signOf f w) (ieeeMagnitude f w) * subnormalUnit f) := by
  rw [cast_signed, ieeeMagnitude, subnormalUnit]
  by_cases he0 : expOf f w = 0
  · rw [if_pos (toNat_of_eq_zero he0)]
    by_cases hm : mantOf f w = 0
    · have hclass : ieeeClass f w = .zero := by rw [ieeeClass, if_pos he0, if_pos hm]
      rw [ieeeValue, hclass, hm]
      simp
    · have hclass : ieeeClass f w = .subnormal := by rw [ieeeClass, if_pos he0, if_neg hm]
      rw [ieeeValue, hclass]
  · have hclass : ieeeClass f w = .normal := by rw [ieeeClass, if_neg he0, if_neg he]
    have he1 := toNat_ne_zero_of_ne_zero he0
    have hexp : ((expOf f w).toNat : ℤ) - f.ieeeBias - f.mantSize
        = ((expOf f w).toNat - 1 : Nat) + (1 - f.ieeeBias - f.mantSize) := by omega
    rw [ieeeValue, hclass, if_neg he1, hexp, zpow_add₀ two_ne_zero, zpow_natCast]
    push_cast
    ring_nf

theorem legacyValue_of_reserved {l : f.Word} (he : expOf f l = 0) (hs : signOf f l = 1) :
    legacyValue f l = none := by
  have h := legacyClass_classified l
  rw [legacyValue]
  generalize legacyClass f l = c at h ⊢
  cases h with
  | reservedOperand => rfl
  | trueZero _ hs' | dirtyZero _ hs' => exact absurd hs hs'
  | number he' => exact absurd he he'

theorem legacyValue_of_zero {l : f.Word} (he : expOf f l = 0) (hs : signOf f l ≠ 1) :
    legacyValue f l = some 0 := by
  have h := legacyClass_classified l
  rw [legacyValue]
  generalize legacyClass f l = c at h ⊢
  cases h with
  | trueZero | dirtyZero => rfl
  | reservedOperand _ hs' => exact absurd hs' hs
  | number he' => exact absurd he he'

theorem legacyValue_eq (hf : f.Standard) {l : f.Word} (h : ¬ (expOf f l = 0 ∧ signOf f l = 1)) :
    legacyValue f l = some (signed (signOf f l) (legacyMagnitude f l) * (subnormalUnit f / 8)) := by
  rw [cast_signed, legacyMagnitude, subnormalUnit_div_eight hf]
  by_cases he : expOf f l = 0
  · rw [legacyValue_of_zero he fun hs => h ⟨he, hs⟩, if_pos (toNat_of_eq_zero he)]
    simp
  · have hexp : ((expOf f l).toNat : ℤ) - f.legacyBias - f.mantSize - 1
        = (expOf f l).toNat + (-(f.legacyBias : ℤ) - f.mantSize - 1) := by omega
    rw [legacyValue_of_number f he, if_neg (toNat_ne_zero_of_ne_zero he), hexp, zpow_add₀ two_ne_zero,
      zpow_natCast]
    push_cast
    rw [mul_assoc, mul_assoc, mul_assoc]

/-- A legacy word that has a value has it as a multiple of an eighth of the unit. -/
theorem legacyValue_eq_some (hf : f.Standard) {l : f.Word} {v : ℚ} (hv : legacyValue f l = some v) :
    ¬ (expOf f l = 0 ∧ signOf f l = 1) ∧
      v = signed (signOf f l) (legacyMagnitude f l) * (subnormalUnit f / 8) := by
  have hvalued : ¬ (expOf f l = 0 ∧ signOf f l = 1) := fun ⟨he, hs⟩ => by
    rw [legacyValue_of_reserved he hs] at hv
    cases hv
  rw [legacyValue_eq hf hvalued] at hv
  exact ⟨hvalued, (Option.some.inj hv).symm⟩

/-- An IEEE pattern that has a value is finite and has it as a multiple of the unit. -/
theorem ieeeValue_eq_some (hf : f.Standard) {w : f.Word} {v : ℚ} (hv : ieeeValue f w = some v) :
    expOf f w ≠ BitVec.allOnes f.expSize ∧ v = signed (signOf f w) (ieeeMagnitude f w) * subnormalUnit f := by
  have hfinite : expOf f w ≠ BitVec.allOnes f.expSize := fun he => by
    rw [ieeeValue_of_allOnes hf he] at hv
    cases hv
  rw [ieeeValue_of_finite hfinite] at hv
  exact ⟨hfinite, (Option.some.inj hv).symm⟩

/-! ## Decode divides by 8 -/

theorem mul_two_pow_div_eight (x : Nat) {e : Nat} (he : 3 ≤ e) : x * 2 ^ e = 8 * (x * 2 ^ (e - 3)) := by
  obtain ⟨k, rfl⟩ := Nat.exists_eq_add_of_le he
  rw [Nat.add_sub_cancel_left, Nat.pow_add, ← Nat.mul_assoc, Nat.mul_comm x, Nat.mul_assoc]

theorem ieeeMagnitude_zero : ieeeMagnitude f 0 = 0 := by
  rw [ieeeMagnitude, expOf_zero, mantOf_zero]
  exact if_pos rfl

theorem ieeeMagnitude_dec (hf : f.Standard) (l : f.Word) : ieeeMagnitude f (dec f l).1 = legacyMagnitude f l / 8 := by
  have h := dec_decoded hf l
  rw [legacyMagnitude]
  generalize (dec f l).1 = w, (dec f l).2 = c at h ⊢
  cases h with
  | reserved he | zero he => rw [if_pos (toNat_of_eq_zero he), ieeeMagnitude_zero]
  | normal he hsign hexp hmant =>
    rw [ieeeMagnitude, if_neg (by omega), if_neg (by omega), hmant, mul_two_pow_div_eight _ he,
      Nat.mul_div_cancel_left _ (by decide), show (expOf f w).toNat - 1 = (expOf f l).toNat - 3 by omega]
  | subnormal he hsign hexp hmant =>
    rw [ieeeMagnitude, if_pos (toNat_of_eq_zero hexp), if_neg (by omega), hmant]
    rcases he with he | he <;> · rw [he]; omega

/-- No decode gives an infinity or a NaN. -/
theorem expOf_dec_ne_allOnes (hf : f.Standard) (l : f.Word) : expOf f (dec f l).1 ≠ BitVec.allOnes f.expSize := by
  have h := dec_decoded hf l
  generalize (dec f l).1 = w, (dec f l).2 = c at h ⊢
  cases h with
  | reserved | zero => exact expOf_zero ▸ hf.allOnes_ne_zero.symm
  | normal he hsign hexp =>
    exact fun h => by have := toNat_eq_allOnes_iff.mp h; omega
  | subnormal he hsign hexp => exact hexp ▸ hf.allOnes_ne_zero.symm

theorem signed_ieeeMagnitude_dec (hf : f.Standard) (l : f.Word) :
    signed (signOf f (dec f l).1) (ieeeMagnitude f (dec f l).1) = signed (signOf f l) (legacyMagnitude f l / 8) := by
  rw [← ieeeMagnitude_dec hf]
  by_cases hne : (dec f l).1 = 0
  · rw [hne, ieeeMagnitude_zero, signed_zero, signed_zero]
  · rw [signOf_dec hf l hne]

theorem ieeeValue_dec (hf : f.Standard) (l : f.Word) :
    ieeeValue f (dec f l).1 = some (signed (signOf f l) (legacyMagnitude f l / 8) * subnormalUnit f) := by
  rw [ieeeValue_of_finite (expOf_dec_ne_allOnes hf l), signed_ieeeMagnitude_dec hf]

/-- Dividing a number of eighths by 8 truncates toward zero, by less than one unit, and exactly when nothing remains. -/
theorem truncation (s : BitVec 1) (n : Nat) {u : ℚ} (hu : 0 < u) :
    let v := (signed s n : ℚ) * (u / 8)
    let w := (signed s (n / 8) : ℚ) * u
    0 ≤ v * w ∧ (8 ≤ n → 0 < v * w) ∧ |w| ≤ |v| ∧ |v| - |w| < u ∧ (w = v ↔ n % 8 = 0) := by
  dsimp only
  have hn : (n : ℚ) = 8 * (n / 8 : Nat) + (n % 8 : Nat) := by exact_mod_cast (Nat.div_add_mod n 8).symm
  have hr : ((n % 8 : Nat) : ℚ) < 8 := by exact_mod_cast Nat.mod_lt n (by decide)
  have hprod : (signed s n : ℚ) * (u / 8) * ((signed s (n / 8) : ℚ) * u) = n * (n / 8 : Nat) * (u * u / 8) := by
    have hsq : signFactor s * signFactor s = 1 := by unfold signFactor; split <;> norm_num
    rw [cast_signed, cast_signed]
    linear_combination (n * (n / 8 : Nat) * (u * u / 8)) * hsq
  have hv : |(signed s n : ℚ) * (u / 8)| = n * (u / 8) := by
    rw [abs_mul, abs_signed, abs_of_pos (by positivity)]
  have hw : |(signed s (n / 8) : ℚ) * u| = (n / 8 : Nat) * u := by rw [abs_mul, abs_signed, abs_of_pos hu]
  have hdiff : n * (u / 8) = (n / 8 : Nat) * u + (n % 8 : Nat) * (u / 8) := by rw [hn]; ring
  refine ⟨?_, fun h8 => ?_, ?_, ?_, ?_⟩
  · rw [hprod]; positivity
  · have hpos : (0 : ℚ) < n := by exact_mod_cast (show 0 < n by omega)
    have hpos' : (0 : ℚ) < (n / 8 : Nat) := by exact_mod_cast (show 0 < n / 8 by omega)
    rw [hprod]; positivity
  · rw [hv, hw, hdiff]
    have : 0 ≤ ((n % 8 : Nat) : ℚ) * (u / 8) := by positivity
    linarith
  · rw [hv, hw, hdiff]
    have : ((n % 8 : Nat) : ℚ) * (u / 8) < 8 * (u / 8) := mul_lt_mul_of_pos_right hr (by positivity)
    linarith
  · constructor
    · intro heq
      have habs : ((n / 8 : Nat) : ℚ) * u = n * (u / 8) := by rw [← hw, ← hv, heq]
      have hzero : ((n % 8 : Nat) : ℚ) * (u / 8) = 0 := by linarith
      exact_mod_cast (mul_eq_zero.mp hzero).resolve_right (by positivity)
    · intro hzero
      rw [cast_signed, cast_signed, hn, hzero]
      push_cast
      ring

end Sys2Proof.Machine
end

section
/-! Encode multiplies by 8 in the units of the values, or flushes to zero below the legacy range (spec/41_single_width.md R111
(e)); overflow is a bound on the magnitude (R110, 42_double_width.md R130). -/

namespace Sys2Proof.Machine

variable {f : Format}

theorem legacyMagnitude_zero : legacyMagnitude f 0 = 0 := by
  rw [legacyMagnitude, expOf_zero]
  exact if_pos rfl

/-- An encode with OK answers a finite pattern. -/
theorem expOf_ne_allOnes_of_enc_ok (hf : f.Standard) {p : f.Word} (hok : (enc f p).2 = .ok) :
    expOf f p ≠ BitVec.allOnes f.expSize := fun h => by
  rw [enc_of_allOnes f hf.allOnes_ne_zero h] at hok
  cases hok

/-- What an encode keeps of a magnitude: nothing below the smallest legacy one. -/
def flushed (f : Format) (n : Nat) : Nat := if n < 2 ^ (f.mantSize - 2) then 0 else n

theorem flushed_zero : flushed f 0 = 0 := ite_self 0

theorem flushed_mono : Monotone (flushed f) := by
  intro m n h
  unfold flushed
  split
  · exact Nat.zero_le _
  · rw [if_neg (by omega)]
    exact h

theorem two_pow_le_ieeeMagnitude {w : f.Word} (he : (expOf f w).toNat ≠ 0) :
    2 ^ f.mantSize ≤ ieeeMagnitude f w := by
  rw [ieeeMagnitude, if_neg he]
  exact (Nat.le_add_right _ _).trans (Nat.le_mul_of_pos_right _ (Nat.two_pow_pos _))

theorem ieeeMagnitude_of_subnormal {w : f.Word} (he : expOf f w = 0) : ieeeMagnitude f w = (mantOf f w).toNat :=
  if_pos (toNat_of_eq_zero he)

theorem legacyMagnitude_enc (hf : f.Standard) {p : f.Word} (hok : (enc f p).2 = .ok) :
    legacyMagnitude f (enc f p).1 = 8 * flushed f (ieeeMagnitude f p) := by
  have h := enc_encoded hf p
  have hquarter := hf.four_mul_quarter
  generalize (enc f p).1 = l, (enc f p).2 = c at h hok ⊢
  cases h with
  | special | overflow => cases hok
  | normal he he' hsign hexp hmant =>
    have hlow := two_pow_le_ieeeMagnitude (w := p) (by omega)
    rw [flushed, if_neg (by omega), legacyMagnitude, if_neg (by omega), ieeeMagnitude, if_neg (by omega),
      hmant, mul_two_pow_div_eight _ (by omega), show (expOf f l).toNat - 3 = (expOf f p).toNat - 1 by omega]
  | subnormal k hk he hsign hexp hmant =>
    rw [ieeeMagnitude_of_subnormal he, flushed, if_neg (by rcases hk with rfl | rfl <;> omega), legacyMagnitude,
      if_neg (by omega), hmant, hexp, Nat.mul_assoc, ← Nat.pow_add, show k + (3 - k) = 3 by omega, Nat.mul_comm]
  | underflow he hm =>
    rw [ieeeMagnitude_of_subnormal he, flushed, if_pos hm, legacyMagnitude_zero]

theorem legacyValue_enc (hf : f.Standard) {p : f.Word} (hok : (enc f p).2 = .ok) :
    legacyValue f (enc f p).1
      = some (signed (signOf f p) (flushed f (ieeeMagnitude f p)) * subnormalUnit f) := by
  have hmag := legacyMagnitude_enc hf hok
  by_cases hne : (enc f p).1 = 0
  · have hflushed : flushed f (ieeeMagnitude f p) = 0 := by
      rw [hne, legacyMagnitude_zero] at hmag
      omega
    have hs : signOf f (0 : f.Word) ≠ 1 := by rw [signOf_zero]; decide
    rw [hflushed, hne, legacyValue_of_zero expOf_zero hs, signed_zero, Int.cast_zero, zero_mul]
  · have hvalued : ¬ (expOf f (enc f p).1 = 0 ∧ signOf f (enc f p).1 = 1) := fun h =>
      ((enc_chopped_bits_clear hf p).resolve_left hne).1 (toNat_of_eq_zero h.1)
    rw [legacyValue_eq hf hvalued, signOf_enc hf p hne, hmag, cast_signed, cast_signed]
    push_cast
    ring_nf

/-- Settles O28: a non-zero word was not flushed, so its magnitude is the pattern's, in eighths of the unit. -/
theorem encodePreservesValues : Obligations.EncodePreservesValues := by
  intro f hknown p hok hne
  have hf := Format.standard_of_known hknown
  refine ⟨_, ieeeValue_of_finite (expOf_ne_allOnes_of_enc_ok hf hok), ?_⟩
  have hkept : flushed f (ieeeMagnitude f p) = ieeeMagnitude f p := by
    have hmag := legacyMagnitude_enc hf hok
    have hexp := ((enc_chopped_bits_clear hf p).resolve_left hne).1
    have hpos : 0 < legacyMagnitude f (enc f p).1 := by
      rw [legacyMagnitude, if_neg hexp]
      positivity
    unfold flushed at hmag ⊢
    split at hmag
    · omega
    · rw [if_neg ‹_›]
  rw [legacyValue_enc hf hok, hkept]

/-- Settles O29: a decode divides the magnitude by 8, which leaves no remainder for `e >= 3`. -/
theorem decodeTruncatesTowardZero : Obligations.DecodeTruncatesTowardZero := by
  intro f hknown l v hv
  have hf := Format.standard_of_known hknown
  obtain ⟨hvalued, rfl⟩ := legacyValue_eq_some hf hv
  obtain ⟨hsign, -, hle, hlt, hexact⟩ :=
    truncation (signOf f l) (legacyMagnitude f l) (subnormalUnit_pos (f := f))
  have hok : (dec f l).2 = .ok := (dec_tag hf l).resolve_right fun h =>
    hvalued ((dec_reservedOperand_iff hf l).mp h.1).symm
  refine ⟨hok, _, ieeeValue_dec hf l, hsign, hle, hlt, fun he => hexact.mpr ?_⟩
  rw [legacyMagnitude, if_neg (by omega), mul_two_pow_div_eight _ he, Nat.mul_mod_right]

/-! ## Monotonicity -/

/-- Of two multiples of a positive unit the order is that of the multipliers. -/
theorem cast_mul_le_cast_mul {a b : ℤ} {u : ℚ} (hu : 0 < u) : (a : ℚ) * u ≤ b * u ↔ a ≤ b :=
  (mul_le_mul_iff_of_pos_right hu).trans Int.cast_le

/-- Settles O35: both directions are monotone functions of the magnitude that keep 0 and the sign. -/
theorem conversionsAreMonotone : Obligations.ConversionsAreMonotone := by
  intro f hknown p q
  have hf := Format.standard_of_known hknown
  have hunit := subnormalUnit_pos (f := f)
  refine ⟨fun v w hv hw hle => ?_, fun v w hv hw hle hp hq => ?_⟩
  · obtain ⟨-, rfl⟩ := legacyValue_eq_some hf hv
    obtain ⟨-, rfl⟩ := legacyValue_eq_some hf hw
    have hsigned := (cast_mul_le_cast_mul (by positivity)).mp hle
    have hdiv : Monotone (· / 8 : Nat → Nat) := fun _ _ h => Nat.div_le_div_right h
    exact ⟨_, _, ieeeValue_dec hf p, ieeeValue_dec hf q,
      (cast_mul_le_cast_mul hunit).mpr (signed_mono hdiv (Nat.zero_div 8) hsigned)⟩
  · obtain ⟨-, rfl⟩ := ieeeValue_eq_some hf hv
    obtain ⟨-, rfl⟩ := ieeeValue_eq_some hf hw
    have hsigned := (cast_mul_le_cast_mul hunit).mp hle
    exact ⟨_, _, legacyValue_enc hf hp, legacyValue_enc hf hq,
      (cast_mul_le_cast_mul hunit).mpr (signed_mono flushed_mono flushed_zero hsigned)⟩

/-! ## Overflow -/

theorem enc_overflow_iff (hf : f.Standard) (p : f.Word) :
    (enc f p).2 = .overflow ↔ (expOf f p).toNat = 2 ^ f.expSize - 2 := by
  have h := enc_encoded hf p
  have hexpSize := hf.eight_le_two_pow_expSize
  generalize (enc f p).1 = l, (enc f p).2 = c at h ⊢
  cases h with
  | overflow he => exact iff_of_true rfl he
  | special | normal => exact iff_of_false nofun (by omega)
  | subnormal _ _ he | underflow he => exact iff_of_false nofun (by rw [toNat_of_eq_zero he]; omega)

theorem enc_of_top_binade (hf : f.Standard) {p : f.Word} (he : (expOf f p).toNat = 2 ^ f.expSize - 2) :
    enc f p
      = (joinFields f (signOf f p) (BitVec.allOnes f.expSize) (BitVec.allOnes f.mantSize), .overflow) := by
  have htag := (enc_overflow_iff hf p).mpr he
  rcases enc_tag hf p with h | ⟨h, -⟩ | ⟨-, hword⟩
  · exact absurd (h.symm.trans htag) nofun
  · exact absurd (h.symm.trans htag) nofun
  · exact Prod.ext hword htag

/-- Among finite patterns the top binade is told by its magnitude. -/
theorem ieeeMagnitude_top_iff (hf : f.Standard) {p : f.Word} (hfinite : expOf f p ≠ BitVec.allOnes f.expSize) :
    2 ^ f.mantSize * 2 ^ (2 ^ f.expSize - 3) ≤ ieeeMagnitude f p ↔ (expOf f p).toNat = 2 ^ f.expSize - 2 := by
  have hexpSize := hf.eight_le_two_pow_expSize
  have hne := mt toNat_eq_allOnes_iff.mpr hfinite
  rw [ieeeMagnitude]
  constructor
  · intro hle
    by_contra htop
    refine absurd hle (Nat.not_le.mpr ?_)
    have hmono : 2 ^ f.mantSize ≤ 2 ^ f.mantSize * 2 ^ (2 ^ f.expSize - 3) :=
      Nat.le_mul_of_pos_right _ (Nat.two_pow_pos _)
    split
    · omega
    · calc (2 ^ f.mantSize + (mantOf f p).toNat) * 2 ^ ((expOf f p).toNat - 1)
          < (2 ^ f.mantSize * 2) * 2 ^ ((expOf f p).toNat - 1) :=
            Nat.mul_lt_mul_of_pos_right (by omega) (Nat.two_pow_pos _)
        _ = 2 ^ f.mantSize * 2 ^ (expOf f p).toNat := by
            rw [Nat.mul_assoc, ← Nat.pow_succ', Nat.succ_eq_add_one, Nat.sub_add_cancel (by omega)]
        _ ≤ 2 ^ f.mantSize * 2 ^ (2 ^ f.expSize - 3) :=
            Nat.mul_le_mul_left _ (Nat.pow_le_pow_right (by decide) (by omega))
  · intro htop
    rw [if_neg (by omega), htop, Nat.sub_sub]
    exact Nat.mul_le_mul_right _ (Nat.le_add_right ..)

/-- The smallest magnitude of the top binade, as a value. -/
theorem two_pow_ieeeBias (hf : f.Standard) :
    (2 : ℚ) ^ f.ieeeBias = (2 ^ f.mantSize * 2 ^ (2 ^ f.expSize - 3) : Nat) * subnormalUnit f := by
  have hbias := hf.legacyBias_eq
  have htwice := hf.two_mul_legacyBias
  have hexpSize := hf.eight_le_two_pow_expSize
  rw [subnormalUnit, ← Nat.pow_add]
  push_cast
  rw [← zpow_natCast, ← zpow_natCast, ← zpow_add₀ two_ne_zero]
  congr 1
  omega

theorem two_pow_ieeeBias_le_iff (hf : f.Standard) {p : f.Word} {v : ℚ} (hv : ieeeValue f p = some v) :
    (2 : ℚ) ^ f.ieeeBias ≤ |v| ↔ (enc f p).2 = .overflow := by
  have hunit := subnormalUnit_pos (f := f)
  obtain ⟨hfinite, rfl⟩ := ieeeValue_eq_some hf hv
  rw [enc_overflow_iff hf, ← ieeeMagnitude_top_iff hf hfinite, two_pow_ieeeBias hf, abs_mul, abs_signed,
    abs_of_pos hunit, mul_le_mul_iff_of_pos_right hunit, Nat.cast_le]

theorem joinFields_single_ones (s : BitVec 1) :
    joinFields .single s (BitVec.allOnes 8) (BitVec.allOnes 23) = if s = 1 then 0xFFFFFFFF#32 else 0x7FFFFFFF#32 := by
  revert s
  decide

theorem joinFields_double_ones (s : BitVec 1) :
    joinFields .double s (BitVec.allOnes 11) (BitVec.allOnes 52)
      = if s = 1 then 0xFFFFFFFFFFFFFFFF#64 else 0x7FFFFFFFFFFFFFFF#64 := by
  revert s
  decide

/-- Settles O25: the tag, the word and the magnitude of the top binade, and the computed examples. -/
theorem encodeSingleOverflow : Obligations.EncodeSingleOverflow := by
  have hf := Format.single_standard
  refine ⟨fun p => ⟨enc_overflow_iff hf p, fun he => ?_⟩, fun p v hv => two_pow_ieeeBias_le_iff hf hv, by decide,
    by decide, by decide, by decide⟩
  exact (enc_of_top_binade hf he).trans (congrArg (·, Cond.overflow) (joinFields_single_ones _))

/-- Settles O27: the tag, the word and the magnitude of the top binade, and the computed examples. -/
theorem encodeDoubleOverflow : Obligations.EncodeDoubleOverflow := by
  have hf := Format.double_standard
  refine ⟨fun p => ⟨enc_overflow_iff hf p, fun he => ?_⟩, fun p v hv => two_pow_ieeeBias_le_iff hf hv, by decide,
    by decide, by decide⟩
  exact (enc_of_top_binade hf he).trans (congrArg (·, Cond.overflow) (joinFields_double_ones _))

end Sys2Proof.Machine
end

section
/-! The two decodes of a number by its exponent: for `e >= 3` a subtraction that keeps the value, for `e = 1, 2` the chopped
mantissa (spec/41_single_width.md R103, R104; 42_double_width.md R123, R131); and the range of the legacy numbers
(30_encoding.md R71). -/

namespace Sys2Proof.Machine

variable {f : Format}

/-! ## The normalized decode -/

theorem dec_fields_of_normal (hf : f.Standard) {l : f.Word} (he : 3 ≤ (expOf f l).toNat) :
    (dec f l).2 = .ok ∧ signOf f (dec f l).1 = signOf f l ∧
      (expOf f (dec f l).1).toNat = (expOf f l).toNat - 2 ∧ mantOf f (dec f l).1 = mantOf f l := by
  have h := dec_decoded hf l
  generalize (dec f l).1 = w, (dec f l).2 = c at h ⊢
  cases h with
  | reserved he0 | zero he0 => rw [toNat_of_eq_zero he0] at he; omega
  | subnormal he12 => omega
  | normal _ hsign hexp hmant => exact ⟨rfl, hsign, by omega, hmant⟩

/-- Dropping the exponent by 2 subtracts 2 at the weight of the exponent field. -/
theorem dec_eq_sub (hf : f.Standard) {l : f.Word} (he : 3 ≤ (expOf f l).toNat) :
    dec f l = (l - BitVec.ofNat _ (2 * 2 ^ f.mantSize), .ok) := by
  obtain ⟨hok, hsign, hexp, hmant⟩ := dec_fields_of_normal hf he
  refine Prod.ext (BitVec.eq_of_toNat_eq ?_) hok
  have hsum := toNat_eq_sum l
  have hweight : (expOf f l).toNat * 2 ^ f.mantSize
      = (expOf f (dec f l).1).toNat * 2 ^ f.mantSize + 2 * 2 ^ f.mantSize := by
    rw [← Nat.add_mul, hexp, Nat.sub_add_cancel (by omega)]
  have hsub : (BitVec.ofNat (1 + f.expSize + f.mantSize) (2 * 2 ^ f.mantSize)).toNat = 2 * 2 ^ f.mantSize := by
    rw [BitVec.toNat_ofNat, Nat.mod_eq_of_lt (by omega)]
  rw [BitVec.toNat_sub_of_le (by rw [BitVec.le_def, hsub]; omega), hsub, toNat_eq_sum, hsign, hmant]
  omega

theorem ieeeClass_of_exp {w : f.Word} (he : (expOf f w).toNat ≠ 0) (he' : (expOf f w).toNat ≠ 2 ^ f.expSize - 1) :
    ieeeClass f w = .normal := by
  rw [ieeeClass, if_neg (mt toNat_of_eq_zero he), if_neg (mt toNat_eq_allOnes_iff.mp he')]

/-- Everything R103 and R131 say of the normalized decode but its integer form. -/
theorem dec_normal_facts (hf : f.Standard) {l : f.Word} (he : 3 ≤ (expOf f l).toNat) :
    (expOf f (dec f l).1).toNat ≤ 2 ^ f.expSize - 3 ∧ ieeeClass f (dec f l).1 = .normal ∧
      ∃ v, legacyValue f l = some v ∧ ieeeValue f (dec f l).1 = some v := by
  obtain ⟨-, -, hexp, -⟩ := dec_fields_of_normal hf he
  have hvalued : ¬ (expOf f l = 0 ∧ signOf f l = 1) := fun h => by
    rw [toNat_of_eq_zero h.1] at he
    omega
  have hrem : legacyMagnitude f l % 8 = 0 := by
    rw [legacyMagnitude, if_neg (by omega), mul_two_pow_div_eight _ he, Nat.mul_mod_right]
  obtain ⟨-, -, -, -, hexact⟩ :=
    truncation (signOf f l) (legacyMagnitude f l) (subnormalUnit_pos (f := f))
  refine ⟨by omega, ieeeClass_of_exp (by omega) (by omega), _, legacyValue_eq hf hvalued, ?_⟩
  rw [ieeeValue_dec hf, hexact.mpr hrem]

/-- Settles O14: the integer form, the fields and the value of the normalized decode, and the computed examples. -/
theorem decodeSingleNormalIsExact : Obligations.DecodeSingleNormalIsExact := by
  have hf := Format.single_standard
  refine ⟨fun l he => ?_, by decide, by decide, by decide⟩
  obtain ⟨-, hsign, hexp, hmant⟩ := dec_fields_of_normal hf he
  exact ⟨dec_eq_sub hf he, hsign, hexp, hmant, dec_normal_facts hf he⟩

/-- Subtracting 2 at the weight of the double exponent changes only the high half (R131). -/
theorem extractLsb'_sub_exponent (l : Word64) :
    (l - 0x0020000000000000#64).extractLsb' 32 32 = l.extractLsb' 32 32 - 0x00200000#32 ∧
    (l - 0x0020000000000000#64).extractLsb' 0 32 = l.extractLsb' 0 32 := by
  constructor <;> apply BitVec.eq_of_toNat_eq
  · simp only [BitVec.extractLsb'_toNat, BitVec.toNat_sub, BitVec.toNat_ofNat, Nat.shiftRight_eq_div_pow]
    omega
  · simp only [BitVec.extractLsb'_toNat, BitVec.toNat_sub, BitVec.toNat_ofNat, Nat.shiftRight_zero]
    omega

/-- Settles O17: as a subtraction the normalized decode touches the high half alone; its fields and value are those of either
width. -/
theorem decodeDoubleNormalIsExact : Obligations.DecodeDoubleNormalIsExact := by
  have hf := Format.double_standard
  refine ⟨fun l he => ?_, by decide, by decide, by decide⟩
  obtain ⟨-, hsign, hexp, hmant⟩ := dec_fields_of_normal hf he
  have hsub : dec64 l = (l - 0x0020000000000000#64, .ok) := dec_eq_sub hf he
  obtain ⟨hhi, hlo⟩ := extractLsb'_sub_exponent l
  exact ⟨hsub, hsign, hexp, hmant, hsub ▸ hhi, hsub ▸ hlo, dec_normal_facts hf he⟩

/-! ## The subnormal decode -/

/-- The chopped mantissa of exponent 1 or 2 is the magnitude in whole units, and the lost bits are its remainder. -/
theorem legacyMagnitude_of_exp_one_or_two (hf : f.Standard) {l : f.Word}
    (he : (expOf f l).toNat = 1 ∨ (expOf f l).toNat = 2) :
    legacyMagnitude f l / 8 = (2 ^ f.mantSize + (mantOf f l).toNat) / 2 ^ (3 - (expOf f l).toNat) ∧
    (legacyMagnitude f l % 8 = 0 ↔ (mantOf f l).toNat % 2 ^ (3 - (expOf f l).toNat) = 0) := by
  have hquarter := hf.four_mul_quarter
  rw [legacyMagnitude, if_neg (by omega)]
  rcases he with he | he <;> · rw [he]; omega

/-- The values of the subnormal decode (R104, R123): truncated toward zero to a whole unit, and never zero. -/
theorem dec_subnormal_values (hf : f.Standard) {l : f.Word} (he : (expOf f l).toNat = 1 ∨ (expOf f l).toNat = 2) :
    let q := (2 ^ f.mantSize + (mantOf f l).toNat) / 2 ^ (3 - (expOf f l).toNat)
    ∃ v w : ℚ, legacyValue f l = some v ∧ ieeeValue f (dec f l).1 = some w ∧
      w = signFactor (signOf f l) * q * subnormalUnit f ∧
      |w| ≤ |v| ∧ |v| - |w| < subnormalUnit f ∧ 0 < v * w ∧
      (w = v ↔ (mantOf f l).toNat % 2 ^ (3 - (expOf f l).toNat) = 0) := by
  obtain ⟨hdiv, hrem⟩ := legacyMagnitude_of_exp_one_or_two hf he
  have hvalued : ¬ (expOf f l = 0 ∧ signOf f l = 1) := fun h => by
    rw [toNat_of_eq_zero h.1] at he
    omega
  have hlarge : 8 ≤ legacyMagnitude f l := by
    have hquarter := hf.four_mul_quarter
    rw [legacyMagnitude, if_neg (by omega)]
    rcases he with he | he <;> · rw [he]; omega
  obtain ⟨-, hsign, hle, hlt, hexact⟩ :=
    truncation (signOf f l) (legacyMagnitude f l) (subnormalUnit_pos (f := f))
  refine ⟨_, _, legacyValue_eq hf hvalued, ieeeValue_dec hf l, ?_, hle, hlt, hsign hlarge, hexact.trans hrem⟩
  rw [cast_signed, hdiv]

/-- The ranges of the chopped mantissa, by exponent. -/
theorem chopped_mantissa_range (hf : f.Standard) (l : f.Word) :
    let q := (2 ^ f.mantSize + (mantOf f l).toNat) / 2 ^ (3 - (expOf f l).toNat)
    ((expOf f l).toNat = 2 → 2 * 2 ^ (f.mantSize - 2) ≤ q ∧ q ≤ 4 * 2 ^ (f.mantSize - 2) - 1) ∧
    ((expOf f l).toNat = 1 → 2 ^ (f.mantSize - 2) ≤ q ∧ q ≤ 2 * 2 ^ (f.mantSize - 2) - 1) := by
  have hquarter := hf.four_mul_quarter
  constructor <;> intro he <;> · rw [he]; omega

theorem subnormalUnit_single : subnormalUnit .single = (2 : ℚ) ^ (-149 : ℤ) := rfl
theorem subnormalUnit_double : subnormalUnit .double = (2 : ℚ) ^ (-1074 : ℤ) := rfl

/-- Settles O15: the chopped mantissa is the magnitude in whole units, and a shift by the width of a word leaves none. -/
theorem decodeSingleSubnormalChops : Obligations.DecodeSingleSubnormalChops := by
  have hf := Format.single_standard
  refine ⟨fun l he => ?_, fun m sh hsh => BitVec.ushiftRight_eq_zero hsh, by decide, by decide, by decide⟩
  obtain ⟨htwo, hone⟩ := chopped_mantissa_range hf l
  exact ⟨dec_of_exp_one_or_two hf he, htwo, hone, subnormalUnit_single ▸ dec_subnormal_values hf he⟩

/-- Settles O18: the loop over the halves gives the chopped mantissa, whose range and value are those of either width. -/
theorem decodeDoubleSubnormalInHalves : Obligations.DecodeDoubleSubnormalInHalves := by
  have hf := Format.double_standard
  refine ⟨fun l he => ?_, by decide, by decide, by decide, by decide⟩
  obtain ⟨htwo, hone⟩ := chopped_mantissa_range hf l
  obtain ⟨v, w, hv, hw, -, hle, hlt, hpos, hexact⟩ := dec_subnormal_values hf he
  exact ⟨decodeSubnormalHalves_eq_dec64 he, decodeSubnormalHalves_eq l, htwo, hone, v, w, hv, hw, hle,
    subnormalUnit_double ▸ hlt, hpos, hexact⟩

/-! ## The range of legacy numbers -/

/-- The smallest legacy magnitude is that of the hidden bit alone under exponent 1, the largest that of an all-ones mantissa
under the all-ones exponent. -/
theorem legacyMagnitude_range {l : f.Word} (he : (expOf f l).toNat ≠ 0) :
    2 ^ (f.mantSize + 1) ≤ legacyMagnitude f l ∧
      legacyMagnitude f l ≤ (2 ^ (f.mantSize + 1) - 1) * 2 ^ (2 ^ f.expSize - 1) := by
  rw [legacyMagnitude, if_neg he]
  constructor
  · rw [Nat.pow_succ]
    exact Nat.mul_le_mul (Nat.le_add_right ..) (Nat.le_self_pow he 2)
  · exact Nat.mul_le_mul (by omega) (Nat.pow_le_pow_right (by decide) (by omega))

theorem legacyValue_range (hf : f.Standard) {k : Nat} (hk : f.legacyBias = k + f.mantSize + 2) {l : f.Word}
    (hnumber : legacyClass f l = .number) :
    ∃ v, legacyValue f l = some v ∧ (2 : ℚ) ^ (-(f.legacyBias : ℤ)) ≤ |v| ∧
      |v| ≤ (2 ^ (f.mantSize + 1) - 1) * (2 : ℚ) ^ k := by
  have he := exp_ne_zero_of_number hnumber
  obtain ⟨hlow, hhigh⟩ := legacyMagnitude_range he
  have htwice := hf.two_mul_legacyBias
  have hunit : 0 < subnormalUnit f / 8 := div_pos subnormalUnit_pos (by norm_num)
  have hsmallest : (2 : ℚ) ^ (-(f.legacyBias : ℤ)) = (2 ^ (f.mantSize + 1) : Nat) * (subnormalUnit f / 8) := by
    rw [subnormalUnit_div_eight hf, Nat.cast_pow, Nat.cast_ofNat, ← zpow_natCast, ← zpow_add₀ two_ne_zero]
    congr 1
    omega
  have hlargest : (2 : ℚ) ^ k = (2 ^ (2 ^ f.expSize - 1) : Nat) * (subnormalUnit f / 8) := by
    rw [subnormalUnit_div_eight hf, Nat.cast_pow, Nat.cast_ofNat, ← zpow_natCast, ← zpow_natCast,
      ← zpow_add₀ two_ne_zero]
    congr 1
    omega
  refine ⟨_, legacyValue_eq hf fun h => he (toNat_of_eq_zero h.1), ?_, ?_⟩
  · rw [abs_mul, abs_signed, abs_of_pos hunit, hsmallest]
    exact mul_le_mul_of_nonneg_right (Nat.cast_le.mpr hlow) hunit.le
  · rw [abs_mul, abs_signed, abs_of_pos hunit, hlargest, ← mul_assoc]
    refine mul_le_mul_of_nonneg_right ?_ hunit.le
    have hcast : ((2 ^ (f.mantSize + 1) - 1 : Nat) : ℚ) = 2 ^ (f.mantSize + 1) - 1 := by
      rw [Nat.cast_sub Nat.one_le_two_pow, Nat.cast_pow, Nat.cast_ofNat, Nat.cast_one]
    rw [← hcast, ← Nat.cast_mul]
    exact Nat.cast_le.mpr hhigh

/-- Settles O37: the bounds of either width with its constants, and the computed values of the four words. -/
theorem legacyMagnitudeRange : Obligations.LegacyMagnitudeRange := by
  exact ⟨fun l => legacyValue_range (k := 103) Format.single_standard rfl,
    fun l => legacyValue_range (k := 970) Format.double_standard rfl, by decide +kernel, by decide +kernel,
    by decide +kernel, by decide +kernel⟩

end Sys2Proof.Machine
end
